-- ==== Sys2Proof/Word.lean ====
section
/-! DEFINITION. The word types of BFNC (00_scope R8, R9): every architectural value is an unsigned bit vector. -/

namespace Sys2Proof

/-- A one-bit flag register (`E_VALID`). -/
abbrev Bit := BitVec 1

/-- One location of the buffer memory, 10_state R23. -/
abbrev Byte := BitVec 8

/-- An offset, a length, a sequence number or a bitmask: 16 bits (00_scope R8). -/
abbrev Word16 := BitVec 16

/-- A command word `CMD[63:0]` (30_encoding R70). -/
abbrev CmdWord := BitVec 64

/-- One beat `RSP[63:0]` of the response port (30_encoding R79). -/
abbrev BeatWord := BitVec 64

end Sys2Proof
end

