-- ==== Sys2Proof/Syntax.lean ====
section
/-! DEFINITION. The fourteen commands of 30_encoding R74, their operands at the widths of their fields (R70 to R72), and a
command as an assembler line gives it (R82). -/

namespace Sys2Proof

/-- One command of the opcode table. Each operand has exactly the width of the field it is cut from (30_encoding R71). -/
inductive Instr where
  /-- `RGN.SET base, len` (R90). -/
  | rgnSet (base len : Word16)
  /-- `CUR.SEEK byte, bit` (R91); `bit` is `N[2:0]`. -/
  | curSeek (byte : Word16) (bit : BitVec 3)
  /-- `REG.RD idx` (R93). -/
  | regRd (idx : BitVec 8)
  /-- `MEM.RDB off` (R94). -/
  | memRdb (off : Word16)
  /-- `MEM.WRB off, val` (R95); `val` is `C[7:0]`. -/
  | memWrb (off : Word16) (val : Byte)
  /-- `BIT.RD n` (R111). -/
  | bitRd (n : BitVec 8)
  /-- `BIT.RDB` (R112). -/
  | bitRdb
  /-- `BIT.WR n, val` (R113); `val` is `C[7:0]`. -/
  | bitWr (n : BitVec 8) (val : Byte)
  /-- `NB.DEC off` (R131). -/
  | nbDec (off : Word16)
  /-- `NB.ENC off, pid, blp` (R132). -/
  | nbEnc (off pid blp : Word16)
  /-- `NR.DEC off, len` (R141). -/
  | nrDec (off len : Word16)
  /-- `NR.START off` (R145). -/
  | nrStart (off : Word16)
  /-- `NR.PUSH sn` (R146). -/
  | nrPush (sn : Word16)
  /-- `NR.FLUSH` (R149). -/
  | nrFlush
deriving DecidableEq, Repr

/-- The fourteen mnemonics of 30_encoding R74. -/
inductive Mnemonic where
  | rgnSet | curSeek | regRd | memRdb | memWrb
  | bitRd | bitRdb | bitWr
  | nbDec | nbEnc
  | nrDec | nrStart | nrPush | nrFlush
deriving DecidableEq, Repr

/-- The nine formats of 30_encoding R72: the set of fields a command reads besides `OP`. -/
inductive Format where
  | z | n | a | b | ab | ac8 | na | nc8 | abc
deriving DecidableEq, Repr

/-- A command as an assembler line spells it (30_encoding R82): a mnemonic and its operands, in the order of R74, as
numbers of any size. Whether each fits its field is `AsmLine.wellFormed`. -/
structure AsmLine where
  mnemonic : Mnemonic
  operands : List Nat
deriving DecidableEq, Repr

/-- The row of 30_encoding R74 that a command belongs to. -/
def Instr.mnemonic : Instr → Mnemonic
  | .rgnSet _ _ => .rgnSet
  | .curSeek _ _ => .curSeek
  | .regRd _ => .regRd
  | .memRdb _ => .memRdb
  | .memWrb _ _ => .memWrb
  | .bitRd _ => .bitRd
  | .bitRdb => .bitRdb
  | .bitWr _ _ => .bitWr
  | .nbDec _ => .nbDec
  | .nbEnc _ _ _ => .nbEnc
  | .nrDec _ _ => .nrDec
  | .nrStart _ => .nrStart
  | .nrPush _ => .nrPush
  | .nrFlush => .nrFlush

/-- The operands of a command in the assembler order of 30_encoding R74. -/
def Instr.operands : Instr → List Nat
  | .rgnSet base len => [base.toNat, len.toNat]
  | .curSeek byte bit => [byte.toNat, bit.toNat]
  | .regRd idx => [idx.toNat]
  | .memRdb off => [off.toNat]
  | .memWrb off val => [off.toNat, val.toNat]
  | .bitRd n => [n.toNat]
  | .bitRdb => []
  | .bitWr n val => [n.toNat, val.toNat]
  | .nbDec off => [off.toNat]
  | .nbEnc off pid blp => [off.toNat, pid.toNat, blp.toNat]
  | .nrDec off len => [off.toNat, len.toNat]
  | .nrStart off => [off.toNat]
  | .nrPush sn => [sn.toNat]
  | .nrFlush => []

/-- A command as the assembler line that spells it. -/
def Instr.toAsm (i : Instr) : AsmLine := ⟨i.mnemonic, i.operands⟩

end Sys2Proof
end

