-- ==== Sys2Proof/WellFormed.lean ====
section
/-! DEFINITION. Well-formedness (30_encoding R82: "An operand that does not fit its field is an assembly error"). An
assembler line is well formed when it has the operands its row of R74 lists and each fits its field. -/

namespace Sys2Proof

/-- For each operand of a row of 30_encoding R74, in assembler order, the number of values its field holds (R70 to R72). -/
def Mnemonic.operandLimits : Mnemonic → List Nat
  | .rgnSet => [65536, 65536]
  | .curSeek => [65536, 8]
  | .regRd => [256]
  | .memRdb => [65536]
  | .memWrb => [65536, 256]
  | .bitRd => [256]
  | .bitRdb => []
  | .bitWr => [256, 256]
  | .nbDec => [65536]
  | .nbEnc => [65536, 65536, 65536]
  | .nrDec => [65536, 65536]
  | .nrStart => [65536]
  | .nrPush => [65536]
  | .nrFlush => []

/-- Check 1: the line has as many operands as its row of R74 lists. -/
def AsmLine.arityOk (l : AsmLine) : Bool :=
  l.operands.length == l.mnemonic.operandLimits.length

/-- Check 2: every operand fits its field (R82). -/
def AsmLine.operandsFit (l : AsmLine) : Bool :=
  (l.operands.zip l.mnemonic.operandLimits).all fun p => decide (p.1 < p.2)

/-- The line assembles. -/
def AsmLine.wellFormed (l : AsmLine) : Bool := l.arityOk && l.operandsFit

/-- A command is well formed when the line that spells it is. Every `Instr` is, because its operands have the widths of
their fields (`Sys2Proof.Laws.WordForm`). -/
def Instr.wellFormed (i : Instr) : Bool := i.toAsm.wellFormed

end Sys2Proof
end

