-- ==== Sys2Proof/Decode.lean ====
section
/-! DEFINITION. The command word (30_encoding R70 to R77): its fields, the opcode table, the decoder, the encoder, reserved
bits, and the assembler's step from a line to a command (R82). -/

namespace Sys2Proof

/-! ## Fields (R70) -/

/-- `OP = CMD[63:56]`. -/
def fieldOP (w : CmdWord) : BitVec 8 := w.extractLsb' 56 8
/-- `N = CMD[55:48]`. -/
def fieldN (w : CmdWord) : BitVec 8 := w.extractLsb' 48 8
/-- `N[2:0] = CMD[50:48]`, the bit index of `CUR.SEEK`. -/
def fieldN3 (w : CmdWord) : BitVec 3 := w.extractLsb' 48 3
/-- `A = CMD[47:32]`. -/
def fieldA (w : CmdWord) : Word16 := w.extractLsb' 32 16
/-- `B = CMD[31:16]`. -/
def fieldB (w : CmdWord) : Word16 := w.extractLsb' 16 16
/-- `C = CMD[15:0]`. -/
def fieldC (w : CmdWord) : Word16 := w.extractLsb' 0 16
/-- `C[7:0] = CMD[7:0]`, the byte value of `MEM.WRB` and `BIT.WR`. -/
def fieldC8 (w : CmdWord) : Byte := w.extractLsb' 0 8

/-! ## Decoding (R74, R75) -/

/-- The opcode map of R74. Every row's mask is `0xFF00000000000000`: the decoder compares `OP` alone. -/
def opcodeTable : List (BitVec 8 × Mnemonic) :=
  [ (0x01#8, .rgnSet), (0x02#8, .curSeek), (0x03#8, .regRd), (0x04#8, .memRdb), (0x05#8, .memWrb),
    (0x10#8, .bitRd), (0x11#8, .bitRdb), (0x12#8, .bitWr),
    (0x20#8, .nbDec), (0x21#8, .nbEnc),
    (0x30#8, .nrDec), (0x31#8, .nrStart), (0x32#8, .nrPush), (0x33#8, .nrFlush) ]

/-- The row an `OP` value selects. -/
def lookupOpcode (op : BitVec 8) : Option Mnemonic :=
  (opcodeTable.find? fun r => r.1 == op).map Prod.snd

/-- The operands of a row, cut from the fields its format names (R72, R74), whatever the other bits hold. -/
def cutOperands (m : Mnemonic) (w : CmdWord) : Instr :=
  match m with
  | .rgnSet => .rgnSet (fieldA w) (fieldB w)
  | .curSeek => .curSeek (fieldA w) (fieldN3 w)
  | .regRd => .regRd (fieldN w)
  | .memRdb => .memRdb (fieldA w)
  | .memWrb => .memWrb (fieldA w) (fieldC8 w)
  | .bitRd => .bitRd (fieldN w)
  | .bitRdb => .bitRdb
  | .bitWr => .bitWr (fieldN w) (fieldC8 w)
  | .nbDec => .nbDec (fieldA w)
  | .nbEnc => .nbEnc (fieldA w) (fieldB w) (fieldC w)
  | .nrDec => .nrDec (fieldA w) (fieldB w)
  | .nrStart => .nrStart (fieldA w)
  | .nrPush => .nrPush (fieldB w)
  | .nrFlush => .nrFlush

/-- Why a word spells no command (R76). -/
inductive DecodeError where
  /-- `OP` is none of the fourteen values of R74. -/
  | undefinedOpcode (op : BitVec 8)
deriving DecidableEq, Repr

/-- R75: total on every word; an unassigned `OP` is rejected by name. -/
def decode (w : CmdWord) : Except DecodeError Instr :=
  match lookupOpcode (fieldOP w) with
  | some m => .ok (cutOperands m w)
  | none => .error (.undefinedOpcode (fieldOP w))

/-- The command word an opcode-table word of `nbits` bits stands for: a command is one 64-bit word and its bits are
numbered as the table numbers them (R70, R74); bits above `nbits` are 0. -/
def tableWord (nbits w : Nat) : CmdWord := BitVec.ofNat 64 (w % 2 ^ nbits)

/-- What the decoder reads from an opcode-table word. -/
def decodeTableWord (nbits w : Nat) : Option Instr :=
  match decode (tableWord nbits w) with
  | .ok i => some i
  | .error _ => none

/-! ## Encoding (R82: `OP << 56 | N << 48 | A << 32 | B << 16 | C`, reserved bits 0) -/

/-- The word with these five fields. -/
def packWord (op n : BitVec 8) (a b c : Word16) : CmdWord := op ++ n ++ a ++ b ++ c

/-- The word an assembler emits for a command. -/
def encode : Instr → CmdWord
  | .rgnSet base len => packWord 0x01#8 0 base len 0
  | .curSeek byte bit => packWord 0x02#8 (bit.zeroExtend 8) byte 0 0
  | .regRd idx => packWord 0x03#8 idx 0 0 0
  | .memRdb off => packWord 0x04#8 0 off 0 0
  | .memWrb off val => packWord 0x05#8 0 off 0 (val.zeroExtend 16)
  | .bitRd n => packWord 0x10#8 n 0 0 0
  | .bitRdb => packWord 0x11#8 0 0 0 0
  | .bitWr n val => packWord 0x12#8 n 0 0 (val.zeroExtend 16)
  | .nbDec off => packWord 0x20#8 0 off 0 0
  | .nbEnc off pid blp => packWord 0x21#8 0 off pid blp
  | .nrDec off len => packWord 0x30#8 0 off len 0
  | .nrStart off => packWord 0x31#8 0 off 0 0
  | .nrPush sn => packWord 0x32#8 0 0 sn 0
  | .nrFlush => packWord 0x33#8 0 0 0 0

/-! ## Reserved bits (R77) -/

/-- The format of each row of R74. -/
def Mnemonic.format : Mnemonic → Format
  | .rgnSet => .ab
  | .curSeek => .na
  | .regRd => .n
  | .memRdb => .a
  | .memWrb => .ac8
  | .bitRd => .n
  | .bitRdb => .z
  | .bitWr => .nc8
  | .nbDec => .a
  | .nbEnc => .abc
  | .nrDec => .ab
  | .nrStart => .a
  | .nrPush => .b
  | .nrFlush => .z

/-- The bits of the word a format reads besides `OP` (R72). -/
def Format.mask : Format → CmdWord
  | .z => 0
  | .n => 0x00FF000000000000#64
  | .a => 0x0000FFFF00000000#64
  | .b => 0x00000000FFFF0000#64
  | .ab => 0x0000FFFFFFFF0000#64
  | .ac8 => 0x0000FFFF000000FF#64
  | .na => 0x0007FFFF00000000#64
  | .nc8 => 0x00FF0000000000FF#64
  | .abc => 0x0000FFFFFFFFFFFF#64

/-- The bits a command of this row reads: `OP` and the fields of its format. All others are reserved (R77). -/
def Mnemonic.readMask (m : Mnemonic) : CmdWord := 0xFF00000000000000#64 ||| m.format.mask

/-- The word spells a command and its reserved bits are 0: the form an assembler emits (R77, R82). The block itself
accepts any value in the reserved bits. -/
def canonicalWord (w : CmdWord) : Bool :=
  match lookupOpcode (fieldOP w) with
  | some m => w &&& ~~~ m.readMask == 0
  | none => false

/-! ## From an assembler line to a command (R82) -/

/-- Places operands that fit their fields; none for a wrong number of operands. -/
def AsmLine.place (l : AsmLine) : Option Instr :=
  match l.mnemonic, l.operands with
  | .rgnSet, [base, len] => some (.rgnSet (.ofNat 16 base) (.ofNat 16 len))
  | .curSeek, [byte, bit] => some (.curSeek (.ofNat 16 byte) (.ofNat 3 bit))
  | .regRd, [idx] => some (.regRd (.ofNat 8 idx))
  | .memRdb, [off] => some (.memRdb (.ofNat 16 off))
  | .memWrb, [off, val] => some (.memWrb (.ofNat 16 off) (.ofNat 8 val))
  | .bitRd, [n] => some (.bitRd (.ofNat 8 n))
  | .bitRdb, [] => some .bitRdb
  | .bitWr, [n, val] => some (.bitWr (.ofNat 8 n) (.ofNat 8 val))
  | .nbDec, [off] => some (.nbDec (.ofNat 16 off))
  | .nbEnc, [off, pid, blp] => some (.nbEnc (.ofNat 16 off) (.ofNat 16 pid) (.ofNat 16 blp))
  | .nrDec, [off, len] => some (.nrDec (.ofNat 16 off) (.ofNat 16 len))
  | .nrStart, [off] => some (.nrStart (.ofNat 16 off))
  | .nrPush, [sn] => some (.nrPush (.ofNat 16 sn))
  | .nrFlush, [] => some .nrFlush
  | _, _ => none

/-- The command a line assembles to; none is the assembly error of R82. -/
def AsmLine.assemble (l : AsmLine) : Option Instr :=
  if l.wellFormed then l.place else none

end Sys2Proof
end

