-- ==== Sys2Proof/Config.lean ====
section
/-! DEFINITION. What the spec leaves open (92_eei_decisions, "Parameters left OPEN"): the size of the buffer memory and
its contents before anything is written. Neither has a value in Lean: no proof can use one. -/

namespace Sys2Proof.Config

/-- One less than `MEM_BYTES`: any of the 65535 values the spec allows (00_scope R8). DESIGN CHOICE of form only,
assumption 1. -/
opaque memBytesLessOne : Fin 65535

/-- The OPEN parameter `MEM_BYTES`, `1 <= MEM_BYTES <= 65535` (00_scope R8; 93 U6). Assumption 1. -/
def memBytes : Nat := memBytesLessOne.val + 1

/-- The unspecified content of a byte no command has written since reset (70_reset R191, R195): first argument, how many
resets came before; second, the absolute address. Assumptions 2 and 3. -/
opaque freeByte : Nat → Nat → Byte

end Sys2Proof.Config
end

