-- ==== Sys2Proof/Machine/State.lean ====
section
/-! DEFINITION. The architectural state of BFNC (10_state R20), the types of its ports (30_encoding R78 to R81), and the
state after reset (10_state R36; 70_reset R190, R191). Plain data throughout. -/

namespace Sys2Proof.Machine

/-- The five statuses of a response (30_encoding R80). -/
inductive Status where
  | ok
  | boundaryError
  | outOfBounds
  | invalidOrderError
  | illegalCommand
deriving DecidableEq, Repr

/-- The four error causes of 60_exceptions R171, the non-`OK` statuses. -/
inductive ErrorKind where
  /-- `BoundaryError`: `BIT.RD`, `BIT.WR`. -/
  | boundaryError
  /-- `OutOfBounds`: every command that tests a bound. -/
  | outOfBounds
  /-- `InvalidOrderError`: `NR.PUSH`. -/
  | invalidOrderError
  /-- `IllegalCommand`: an unassigned `OP`, or `REG.RD` of an index above 10. -/
  | illegalCommand
deriving DecidableEq, Repr

/-- One element `(D1, D0)` of a response's data (30_encoding R78). -/
structure DataPair where
  d1 : Word16
  d0 : Word16
deriving DecidableEq, Repr

/-- `Response = (status, data)` (30_encoding R78). -/
structure Response where
  status : Status
  data : List DataPair
deriving DecidableEq, Repr

/-- A Generic NACK block: packetId and bitmask (42_nack_block R130). -/
structure Block where
  pid : Word16
  blp : Word16
deriving DecidableEq, Repr

/-- What the host presents at the ports next (00_scope R5: commands and reset are the only inputs). -/
inductive PortEvent where
  /-- A command word on the command port. -/
  | command (w : CmdWord)
  /-- `rst = 1` on a clock edge (70_reset R190). -/
  | reset
deriving DecidableEq, Repr

/-- Why the model stops. The hardware never does (00_scope R6, R7). -/
inductive Fault where
  /-- Raised by `State.physical`, on behalf of every command that touches `M`, when the absolute address is at or above
  `MEM_BYTES`, an address 10_state R23 says does not exist. It needs a state that breaks invariant I1 of R32, which no run
  reaches. Safe. Assumption 6. -/
  | noSuchAddress (addr : Nat)
deriving DecidableEq, Repr

/-- No meaning refuses: every command of the table has its effect. -/
inductive Refusal where
  /-- For an arm of `exec` without a meaning; none is left. Safe. -/
  | notModelled (mnemonic : String)
deriving DecidableEq, Repr

/-- The bytes written since reset: address and byte, addresses strictly rising (`Memory.wf`). An unlisted address has no
value of its own; `State.byteAt` gives it a free value (70_reset R191; assumption 2). -/
abbrev Memory := List Host.Cell

/-- The tuple of 10_state R20, with four fields of the model's own, named as such. -/
structure State where
  /-- The model's own: the carrier of the OPEN parameter `MEM_BYTES` (00_scope R8). No step writes it. Assumption 1. -/
  memBytes : Nat
  /-- `M` (R23). -/
  mem : Memory
  /-- `RBASE` (R24). -/
  rbase : Word16
  /-- `RLEN` (R25). -/
  rlen : Word16
  /-- `BYTE_IDX` (R26). -/
  byteIdx : Word16
  /-- `BIT_IDX` (R27): 0 is the most significant bit of the byte. -/
  bitIdx : BitVec 3
  /-- `E_VALID` (R28). -/
  eValid : Bit
  /-- `E_PID` (R28). -/
  ePid : Word16
  /-- `E_BLP` (R28). -/
  eBlp : Word16
  /-- `E_LAST` (R28). -/
  eLast : Word16
  /-- `WOFF` (R29). -/
  woff : Word16
  /-- `BLKCNT` (R30). -/
  blkcnt : Word16
  /-- `ESR` (R31): `{ILL, IOE, OOB, BE}` = bits 3, 2, 1, 0. -/
  esr : BitVec 4
  /-- The model's own: how many resets have been; it indexes the unspecified contents of `M`. Assumption 3. -/
  resets : Nat
  /-- The model's own: what the host presents next, oldest first. Assumption 4. -/
  inputs : List PortEvent
  /-- The model's own: the responses sent in this run, oldest first (00_scope R7). Assumption 5. -/
  rsps : List Response
deriving DecidableEq, Repr

/-- 10_state R36, 70_reset R190, R191: every register 0, no byte of `M` specified. -/
def State.reset : State where
  memBytes := Config.memBytes
  mem := []
  rbase := 0
  rlen := 0
  byteIdx := 0
  bitIdx := 0
  eValid := 0
  ePid := 0
  eBlp := 0
  eLast := 0
  woff := 0
  blkcnt := 0
  esr := 0
  resets := 0
  inputs := []
  rsps := []

end Sys2Proof.Machine
end

