-- ==== Sys2Proof/Machine/Flags.lean ====
section
/-! DEFINITION. Status codes and the flags of `ESR` (10_state R31; 30_encoding R80; 60_exceptions R171). The block has no
other flag. -/

namespace Sys2Proof.Machine

/-- The numbers of 30_encoding R80. -/
def Status.code : Status → BitVec 4
  | .ok => 0
  | .boundaryError => 1
  | .outOfBounds => 2
  | .invalidOrderError => 3
  | .illegalCommand => 4

/-- The status a failing command's response carries. -/
def ErrorKind.status : ErrorKind → Status
  | .boundaryError => .boundaryError
  | .outOfBounds => .outOfBounds
  | .invalidOrderError => .invalidOrderError
  | .illegalCommand => .illegalCommand

/-- The `ESR` bit of an error (10_state R31): 0 `BE`, 1 `OOB`, 2 `IOE`, 3 `ILL`. -/
def ErrorKind.esrBit : ErrorKind → Nat
  | .boundaryError => 0
  | .outOfBounds => 1
  | .invalidOrderError => 2
  | .illegalCommand => 3

/-- `ESR` with the bit of an error set; no bit is ever cleared by a command (R31). -/
def esrWith (esr : BitVec 4) (e : ErrorKind) : BitVec 4 := esr ||| (1#4 <<< e.esrBit)

end Sys2Proof.Machine
end

