-- ==== Sys2Proof/Machine/Operands.lean ====
section
/-! DEFINITION. The values commands compute on: bit fields of a byte (20_memory R52), sequence numbers (43_nack_run R143,
R144), and blocks and their expansion (42_nack_block R130, R133; 43_nack_run R140). -/

namespace Sys2Proof.Machine

/-! ## Bit fields, most significant bit first (R52) -/

/-- `sh = 8 - BIT_IDX - n`, how far the field stands above bit 0 of the byte (41_bit_cursor R113). -/
def fieldShift (bit n : Nat) : Nat := 8 - bit - n

/-- `2^n - 1`, eight bits wide. -/
def lowOnes (n : Nat) : Byte := BitVec.ofNat 8 (2 ^ n - 1)

/-- The target span of an access, `(2^n - 1) << sh` (R113). -/
def spanMask (bit n : Nat) : Byte := lowOnes n <<< fieldShift bit n

/-- `(byte >> (8 - BIT_IDX - n)) & (2^n - 1)` (R52, R111). -/
def readField (byte : Byte) (bit n : Nat) : Byte := (byte >>> fieldShift bit n) &&& lowOnes n

/-- `(old & ~mask) | ((val & (2^n - 1)) << sh)` (R113). -/
def writeField (old : Byte) (bit n : Nat) (val : Byte) : Byte :=
  (old &&& ~~~ spanMask bit n) ||| ((val &&& lowOnes n) <<< fieldShift bit n)

/-! ## Sequence numbers (R143, R144) -/

/-- `a +16 b`. -/
def seqAdd (a b : Word16) : Word16 := a + b

/-- `a -16 b`. -/
def seqSub (a b : Word16) : Word16 := a - b

/-- How `b` stands to `a` (R144). -/
inductive SeqOrder where
  | follows
  | repeats
  | outOfOrder
deriving DecidableEq, Repr

/-- R144: `d = b -16 a`; `d = 0` repeats, `1 <= d <= 0x7FFF` follows, `d >= 0x8000` is out of order. -/
def seqOrder (a b : Word16) : SeqOrder :=
  if (seqSub b a).toNat = 0 then .repeats
  else if (seqSub b a).toNat ≤ 0x7FFF then .follows
  else .outOfOrder

/-- The bitmask bit of offset `o`, `1 << (o - 1)` (R133: bit `i` stands for offset `i + 1`). -/
def offsetBit (o : Nat) : Word16 := 1#16 <<< (o - 1)

/-! ## Blocks (R130) and their expansion (R140) -/

/-- `{packetId, bitmask}` as the 32-bit value `MemRead(a, 4)` gives. -/
def Block.toNat (b : Block) : Nat := b.pid.toNat * 65536 + b.blp.toNat

/-- The block whose 32-bit value is `w`: packetId is bits 31..16, bitmask is bits 15..0. -/
def Block.ofNat (w : Nat) : Block := ⟨BitVec.ofNat 16 (w / 65536), BitVec.ofNat 16 w⟩

/-- A block as a response's data (`D1` = packetId, `D0` = bitmask). -/
def Block.toData (b : Block) : DataPair := ⟨b.pid, b.blp⟩

/-- `ExpandBlock` (R140): the base, then `base +16 (i + 1)` for each set bit `i`, ascending. -/
def expandBlock (b : Block) : List Word16 :=
  b.pid :: (List.range 16).filterMap fun i =>
    if b.blp.getLsbD i then some (seqAdd b.pid (BitVec.ofNat 16 (i + 1))) else none

/-- `Expand` (R140): the blocks' expansions in buffer order. -/
def expand (bs : List Block) : List Word16 := bs.flatMap expandBlock

/-- A single value as a response's data, `D1 = 0` (30_encoding R78). -/
def valueData (v : Word16) : DataPair := ⟨0, v⟩

end Sys2Proof.Machine
end

