-- ==== Sys2Proof/Machine/Ops.lean ====
section
/-! DEFINITION. The operations every command is made of: the memory (10_state R23), the region's bounded access
(20_memory R55, R56), ending a command (00_scope R10; 60_exceptions R173), the cursor (41_bit_cursor R110, R114), the
encoder's registers and its store (43_nack_run R145 to R149), and the ports' events (70_reset R190). -/

namespace Sys2Proof.Machine

/-! ## The listed bytes -/

/-- The byte a command has written at `a` since reset, if one has. -/
def Memory.lookup (a : Nat) : Memory → Option Byte
  | [] => none
  | (b, v) :: rest => if a = b then some v else Memory.lookup a rest

/-- `M[a] <- v`, keeping addresses strictly rising. -/
def Memory.insert (a : Nat) (v : Byte) : Memory → Memory
  | [] => [(a, v)]
  | (b, w) :: rest =>
    if a < b then (a, v) :: (b, w) :: rest
    else if a = b then (a, v) :: rest
    else (b, w) :: Memory.insert a v rest

/-- The canonical form: addresses strictly rising, so none twice. -/
abbrev Memory.wf (m : Memory) : Prop := m.Pairwise fun x y => x.1 < y.1

/-- The `n` low bytes of `v` stored at `a .. a+n-1`, the most significant at `a` (20_memory R51; `MemWrite`, 00_scope R10). -/
def Memory.writeBE (m : Memory) (a : Nat) : Nat → Nat → Memory
  | 0, _ => m
  | n + 1, v => Memory.insert (a + n) (BitVec.ofNat 8 v) (Memory.writeBE m a n (v / 256))

/-- `M[a]`: the byte last written there, or the free value of a byte no command has written since reset (70_reset R191,
R195; assumption 2). -/
def State.byteAt (s : State) (a : Nat) : Byte :=
  (Memory.lookup a s.mem).getD (Config.freeByte s.resets a)

/-- `MemRead(a, n)` (00_scope R10): `{M[a], ..., M[a+n-1]}`, big-endian. -/
def State.memRead (s : State) (a : Nat) : Nat → Nat
  | 0 => 0
  | n + 1 => s.memRead a n * 256 + (s.byteAt (a + n)).toNat

/-- `MemWrite(a, n, v)` (00_scope R10). -/
def State.memWrite (s : State) (a n v : Nat) : State := { s with mem := Memory.writeBE s.mem a n v }

/-! ## Ending a command (R10, R173) -/

/-- Why a command ends without its effect. -/
inductive Stop where
  /-- `raise E` (00_scope R10). -/
  | raised (e : ErrorKind)
  /-- The model's own stop (assumption 6). -/
  | faulted (f : Fault)
deriving DecidableEq, Repr

/-- `raise E` (60_exceptions R173): no byte and no register changes but the `ESR` bit of `E`, and the response is
`(E, [])`. -/
def State.raise (s : State) (e : ErrorKind) : State :=
  { s with esr := esrWith s.esr e, rsps := s.rsps ++ [⟨e.status, []⟩] }

/-- `respond(d...)` (00_scope R10): status `OK` and the listed data. -/
def State.respond (s : State) (data : List DataPair) : State :=
  { s with rsps := s.rsps ++ [⟨.ok, data⟩] }

/-- What a command's body works out: the state with its register and memory writes, and its data; or why it stops. -/
abbrev Result := Except Stop (State × List DataPair)

/-- Every command ends here, in exactly one `respond` or one `raise`; a raise acts on the state before the command, so it
undoes nothing and leaves nothing half done (60_exceptions R173, R175). -/
def State.conclude (s : State) (r : Result) : Host.Outcome State Fault Refusal :=
  match r with
  | .ok (t, data) => .next (t.respond data)
  | .error (.raised e) => .next (s.raise e)
  | .error (.faulted f) => .fault f

/-! ## The region (R55 to R57) -/

/-- Bytes `a .. a+n-1` exist (10_state R23). Invariant I1 makes this so whenever the bounds test passed. -/
def State.physical (s : State) (a n : Nat) : Except Stop Unit :=
  if a + n ≤ s.memBytes then .ok () else .error (.faulted (.noSuchAddress (a + n - 1)))

/-- The bounds test of R55 and R56, then the absolute address `RBASE + off` (R57). The sum is exact. -/
def State.rgnAddr (s : State) (off n : Nat) : Except Stop Nat :=
  if off + n > s.rlen.toNat then .error (.raised .outOfBounds)
  else do
    s.physical (s.rbase.toNat + off) n
    .ok (s.rbase.toNat + off)

/-- `RgnRead(off, n)` (R55). -/
def State.rgnRead (s : State) (off n : Nat) : Except Stop Nat := do
  let a ← s.rgnAddr off n
  .ok (s.memRead a n)

/-- `RgnWrite(off, n, v)` (R56). -/
def State.rgnWrite (s : State) (off n v : Nat) : Except Stop State := do
  let a ← s.rgnAddr off n
  .ok (s.memWrite a n v)

/-- The window registers and the cursor, as `RGN.SET` writes them (40_region_and_management R90). -/
def State.setRegion (s : State) (base len : Word16) : State :=
  { s with rbase := base, rlen := len, byteIdx := 0, bitIdx := 0 }

/-! ## The cursor (R110, R114) -/

/-- The cursor registers. -/
def State.setCursor (s : State) (byte : Word16) (bit : BitVec 3) : State :=
  { s with byteIdx := byte, bitIdx := bit }

/-- `BitCheck(n)` (R110): three tests, the first that fails decides. -/
def State.bitCheck (s : State) (n : Nat) : Except Stop Unit :=
  if n < 1 ∨ n > 8 then .error (.raised .boundaryError)
  else if s.bitIdx.toNat + n > 8 then .error (.raised .boundaryError)
  else if s.byteIdx.toNat ≥ s.rlen.toNat then .error (.raised .outOfBounds)
  else .ok ()

/-- The bit position `p = 8*BYTE_IDX + BIT_IDX` (10_state R27). -/
def State.bitPos (s : State) : Nat := 8 * s.byteIdx.toNat + s.bitIdx.toNat

/-- `Advance(n)` (R114). -/
def State.advance (s : State) (n : Nat) : State :=
  s.setCursor (BitVec.ofNat 16 ((s.bitPos + n) / 8)) (BitVec.ofNat 3 ((s.bitPos + n) % 8))

/-! ## The encoder (R145 to R149) -/

/-- The encoder registers as `NR.START` leaves them (R145). -/
def State.startRun (s : State) (off : Word16) : State :=
  { s with eValid := 0, ePid := 0, eBlp := 0, eLast := 0, woff := off, blkcnt := 0 }

/-- `sn` opens a new block (R146). -/
def State.openBlock (s : State) (sn : Word16) : State :=
  { s with eValid := 1, ePid := sn, eBlp := 0, eLast := sn }

/-- `sn`, at offset `o` from the base, joins the open block (R146). -/
def State.extendBlock (s : State) (o : Nat) (sn : Word16) : State :=
  { s with eBlp := s.eBlp ||| offsetBit o, eLast := sn }

/-- No block is open; `E_PID`, `E_BLP`, `E_LAST` keep their values (R149). -/
def State.closeBlock (s : State) : State := { s with eValid := 0 }

/-- One more block stored: `WOFF + 4`, `BLKCNT + 1` (R148). -/
def State.countBlock (s : State) : State := { s with woff := s.woff + 4, blkcnt := s.blkcnt + 1 }

/-- The open block `(E_PID, E_BLP)` (R28). -/
def State.openedBlock (s : State) : Block := ⟨s.ePid, s.eBlp⟩

/-- `StoreBlock()` (R148): bounds test first, then the four bytes at `WOFF`, then the counters. The block stored is
`openedBlock` of the state before. -/
def State.storeBlock (s : State) : Except Stop State := do
  let t ← s.rgnWrite s.woff.toNat 4 s.openedBlock.toNat
  .ok t.countBlock

/-! ## The ports (R5; 70_reset R190, R191) -/

/-- The oldest pending event is taken from the list. -/
def State.popEvent (s : State) : State := { s with inputs := s.inputs.tail }

/-- `rst = 1` on an edge (70_reset R190, R191): every register to its reset value, every byte of `M` unspecified again, and
a new run begins (00_scope R7). What the host will present afterwards and the parameter `MEM_BYTES` are not the block's. -/
def State.applyReset (s : State) : State :=
  { State.reset with memBytes := s.memBytes, resets := s.resets + 1, inputs := s.inputs }

/-- An unassigned `OP` is executed as the illegal command (30_encoding R76; 60_exceptions R174). -/
def execIllegal (s : State) : Host.Outcome State Fault Refusal := s.conclude (.error (.raised .illegalCommand))

end Sys2Proof.Machine
end

