-- ==== Sys2Proof/Machine/BitCursor.lean ====
section
/-! DEFINITION. Bit cursor commands (41_bit_cursor R110 to R114). -/

namespace Sys2Proof.Machine

/-- `BIT.RD n` (R111). -/
def execBitRd (n : BitVec 8) (s : State) : Host.Outcome State Fault Refusal :=
  s.conclude do
    s.bitCheck n.toNat
    let byte ← s.rgnRead s.byteIdx.toNat 1
    .ok (s.advance n.toNat,
      [valueData ((readField (BitVec.ofNat 8 byte) s.bitIdx.toNat n.toNat).zeroExtend 16)])

/-- `BIT.RDB` (R112). -/
def execBitRdb (s : State) : Host.Outcome State Fault Refusal :=
  s.conclude do
    s.bitCheck 1
    let byte ← s.rgnRead s.byteIdx.toNat 1
    .ok (s.advance 1,
      [valueData (if (BitVec.ofNat 8 byte >>> (7 - s.bitIdx.toNat)) &&& 1#8 ≠ 0 then 1 else 0)])

/-- `BIT.WR n, val` (R113). -/
def execBitWr (n : BitVec 8) (val : Byte) (s : State) : Host.Outcome State Fault Refusal :=
  s.conclude do
    s.bitCheck n.toNat
    let old ← s.rgnRead s.byteIdx.toNat 1
    let t ← s.rgnWrite s.byteIdx.toNat 1
      (writeField (BitVec.ofNat 8 old) s.bitIdx.toNat n.toNat val).toNat
    .ok (t.advance n.toNat, [])

end Sys2Proof.Machine
end

