-- ==== Sys2Proof/Machine/NackBlock.lean ====
section
/-! DEFINITION. Generic NACK block commands (42_nack_block R131, R132). -/

namespace Sys2Proof.Machine

/-- The block at byte offset `off` of the region (R131). -/
def State.readBlock (s : State) (off : Nat) : Except Stop Block := do
  let w ← s.rgnRead off 4
  .ok (Block.ofNat w)

/-- `NB.DEC off` (R131). -/
def execNbDec (off : Word16) (s : State) : Host.Outcome State Fault Refusal :=
  s.conclude do
    let b ← s.readBlock off.toNat
    .ok (s, [b.toData])

/-- `NB.ENC off, pid, blp` (R132). -/
def execNbEnc (off pid blp : Word16) (s : State) : Host.Outcome State Fault Refusal :=
  s.conclude do
    let t ← s.rgnWrite off.toNat 4 (Block.mk pid blp).toNat
    .ok (t, [])

end Sys2Proof.Machine
end

