-- ==== Sys2Proof/Machine/NackRun.lean ====
section
/-! DEFINITION. NACK run commands (43_nack_run R140, R141, R145 to R149). -/

namespace Sys2Proof.Machine

/-- The blocks at `off, off + 4, ...`, `k` of them, in ascending address order (R141). -/
def State.readBlocks (s : State) (off : Nat) : Nat → Except Stop (List Block)
  | 0 => .ok []
  | k + 1 => do
    let b ← s.readBlock off
    let rest ← s.readBlocks (off + 4) k
    .ok (b :: rest)

/-- `NR.DEC off, len` (R141). -/
def execNrDec (off len : Word16) (s : State) : Host.Outcome State Fault Refusal :=
  s.conclude (
    if len.toNat % 4 ≠ 0 then .error (.raised .outOfBounds)
    else if off.toNat + len.toNat > s.rlen.toNat then .error (.raised .outOfBounds)
    else do
      let blocks ← s.readBlocks off.toNat (len.toNat / 4)
      .ok (s, (expand blocks).map valueData))

/-- `NR.START off` (R145). -/
def execNrStart (off : Word16) (s : State) : Host.Outcome State Fault Refusal :=
  s.conclude (.ok (s.startRun off, []))

/-- `NR.PUSH sn` on an open block, once `sn` is known to follow `E_LAST` (R146): it joins the block, or closes it. -/
def State.pushFollowing (s : State) (sn : Word16) : Result :=
  if (seqSub sn s.ePid).toNat ≤ 16 then .ok (s.extendBlock (seqSub sn s.ePid).toNat sn, [])
  else do
    let t ← s.storeBlock
    .ok (t.openBlock sn, [s.openedBlock.toData])

/-- `NR.PUSH sn` (R146, R147). -/
def execNrPush (sn : Word16) (s : State) : Host.Outcome State Fault Refusal :=
  s.conclude (
    if s.eValid = 0 then .ok (s.openBlock sn, [])
    else match seqOrder s.eLast sn with
      | .repeats => .ok (s, [])
      | .outOfOrder => .error (.raised .invalidOrderError)
      | .follows => s.pushFollowing sn)

/-- `NR.FLUSH` (R149). -/
def execNrFlush (s : State) : Host.Outcome State Fault Refusal :=
  s.conclude (
    if s.eValid = 0 then .ok (s, [])
    else do
      let t ← s.storeBlock
      .ok (t.closeBlock, [s.openedBlock.toData]))

end Sys2Proof.Machine
end

