-- ==== Sys2Proof/Machine/Region.lean ====
section
/-! DEFINITION. Region and management commands (40_region_and_management R90 to R95). -/

namespace Sys2Proof.Machine

/-- `RGN.SET base, len` (R90). The test stands inside `next`: whatever `MEM_BYTES` is, the command completes. -/
def execRgnSet (base len : Word16) (s : State) : Host.Outcome State Fault Refusal :=
  .next (if base.toNat + len.toNat > s.memBytes then s.raise .outOfBounds
    else (s.setRegion base len).respond [])

/-- `CUR.SEEK byte, bit` (R91). -/
def execCurSeek (byte : Word16) (bit : BitVec 3) (s : State) : Host.Outcome State Fault Refusal :=
  s.conclude (if 8 * byte.toNat + bit.toNat > 8 * s.rlen.toNat then .error (.raised .outOfBounds)
    else .ok (s.setCursor byte bit, []))

/-- The register map of 10_state R33: the value of register `idx`, zero-extended to 16 bits; none above 10. -/
def State.regValue (s : State) (idx : Nat) : Option Word16 :=
  match idx with
  | 0 => some s.rbase
  | 1 => some s.rlen
  | 2 => some s.byteIdx
  | 3 => some (s.bitIdx.zeroExtend 16)
  | 4 => some (s.esr.zeroExtend 16)
  | 5 => some (s.eValid.zeroExtend 16)
  | 6 => some s.ePid
  | 7 => some s.eBlp
  | 8 => some s.eLast
  | 9 => some s.woff
  | 10 => some s.blkcnt
  | _ => none

/-- `REG.RD idx` (R93). -/
def execRegRd (idx : BitVec 8) (s : State) : Host.Outcome State Fault Refusal :=
  s.conclude (match s.regValue idx.toNat with
    | some v => .ok (s, [valueData v])
    | none => .error (.raised .illegalCommand))

/-- `MEM.RDB off` (R94). -/
def execMemRdb (off : Word16) (s : State) : Host.Outcome State Fault Refusal :=
  s.conclude do
    let v ← s.rgnRead off.toNat 1
    .ok (s, [valueData (BitVec.ofNat 16 v)])

/-- `MEM.WRB off, val` (R95). -/
def execMemWrb (off : Word16) (val : Byte) (s : State) : Host.Outcome State Fault Refusal :=
  s.conclude do
    let t ← s.rgnWrite off.toNat 1 val.toNat
    .ok (t, [])

end Sys2Proof.Machine
end

