-- ==== Sys2Proof/Machine/Dispatch.lean ====
section
/-! DEFINITION. One arm per command of 30_encoding R74. -/

namespace Sys2Proof.Machine

/-- The effect of a command (00_scope R6). -/
def exec (i : Instr) (s : State) : Host.Outcome State Fault Refusal :=
  match i with
  | .rgnSet base len => Sys2Proof.Machine.execRgnSet base len s
  | .curSeek byte bit => Sys2Proof.Machine.execCurSeek byte bit s
  | .regRd idx => Sys2Proof.Machine.execRegRd idx s
  | .memRdb off => Sys2Proof.Machine.execMemRdb off s
  | .memWrb off val => Sys2Proof.Machine.execMemWrb off val s
  | .bitRd n => Sys2Proof.Machine.execBitRd n s
  | .bitRdb => Sys2Proof.Machine.execBitRdb s
  | .bitWr n val => Sys2Proof.Machine.execBitWr n val s
  | .nbDec off => Sys2Proof.Machine.execNbDec off s
  | .nbEnc off pid blp => Sys2Proof.Machine.execNbEnc off pid blp s
  | .nrDec off len => Sys2Proof.Machine.execNrDec off len s
  | .nrStart off => Sys2Proof.Machine.execNrStart off s
  | .nrPush sn => Sys2Proof.Machine.execNrPush sn s
  | .nrFlush => Sys2Proof.Machine.execNrFlush s

end Sys2Proof.Machine
end

