-- ==== Sys2Proof/Machine/Step.lean ====
section
/-! DEFINITION. One step (00_scope R6): the oldest pending event of the ports takes its whole effect. -/

namespace Sys2Proof.Machine

/-- A command word taken from the command port: its command's effect, or the illegal command's (30_encoding R75, R76). -/
def execWord (w : CmdWord) (s : State) : Host.Outcome State Fault Refusal :=
  match decode w with
  | .ok i => exec i s
  | .error _ => execIllegal s

/-- One step. With nothing pending the block holds its state (60_exceptions R182). -/
def step (s : State) : Host.Outcome State Fault Refusal :=
  match s.inputs with
  | [] => .next s
  | .reset :: _ => .next s.popEvent.applyReset
  | .command w :: _ => execWord w s.popEvent

/-- `s` with the command word presented next on the command port, before anything else pending (assumption 4). -/
def State.withFetchWord (s : State) (nbits w : Nat) : State :=
  { s with inputs := .command (tableWord nbits w) :: s.inputs }

end Sys2Proof.Machine
end

