-- ==== Sys2Proof/Laws/Decode.lean ====
section
/-! SUPPORT. Fields of an assembled word, and the opcode table (30_encoding R70, R74, R75). -/

namespace Sys2Proof

/-- No two rows of the opcode table overlap (R75). -/
theorem opcodeTable_disjoint : opcodeTable.Pairwise fun r q => r.1 ≠ q.1 := by decide

/-- The table has fourteen rows, one a mnemonic (R74). -/
theorem opcodeTable_complete (m : Mnemonic) : (opcodeTable.filter fun r => r.2 == m).length = 1 := by
  cases m <;> decide

variable (op n : BitVec 8) (a b c : Word16)

@[simp] theorem fieldOP_packWord : fieldOP (packWord op n a b c) = op := by
  apply BitVec.eq_of_getLsbD_eq
  intro i hi
  simp only [fieldOP, packWord, BitVec.getLsbD_extractLsb', BitVec.getLsbD_append, hi, decide_true, Bool.true_and]
  grind

@[simp] theorem fieldN_packWord : fieldN (packWord op n a b c) = n := by
  apply BitVec.eq_of_getLsbD_eq
  intro i hi
  simp only [fieldN, packWord, BitVec.getLsbD_extractLsb', BitVec.getLsbD_append, hi, decide_true, Bool.true_and]
  grind

@[simp] theorem fieldA_packWord : fieldA (packWord op n a b c) = a := by
  apply BitVec.eq_of_getLsbD_eq
  intro i hi
  simp only [fieldA, packWord, BitVec.getLsbD_extractLsb', BitVec.getLsbD_append, hi, decide_true, Bool.true_and]
  grind

@[simp] theorem fieldB_packWord : fieldB (packWord op n a b c) = b := by
  apply BitVec.eq_of_getLsbD_eq
  intro i hi
  simp only [fieldB, packWord, BitVec.getLsbD_extractLsb', BitVec.getLsbD_append, hi, decide_true, Bool.true_and]
  grind

@[simp] theorem fieldC_packWord : fieldC (packWord op n a b c) = c := by
  apply BitVec.eq_of_getLsbD_eq
  intro i hi
  simp only [fieldC, packWord, BitVec.getLsbD_extractLsb', BitVec.getLsbD_append, hi, decide_true, Bool.true_and]
  grind

end Sys2Proof
end

