-- ==== Sys2Proof/Laws/PerInstr.lean ====
section
/-! SUPPORT. Statements about every command as syntax, one lemma a constructor (LAWS.json). -/

namespace Sys2Proof

theorem packWord_and (o n o' n' : BitVec 8) (a b c a' b' c' : Word16) :
    packWord o n a b c &&& packWord o' n' a' b' c' =
      packWord (o &&& o') (n &&& n') (a &&& a') (b &&& b') (c &&& c') := by
  have h : (o ++ n ++ a ++ b ++ c) &&& (o' ++ n' ++ a' ++ b' ++ c') =
      (o &&& o') ++ (n &&& n') ++ (a &&& a') ++ (b &&& b') ++ (c &&& c') := by
    rw [BitVec.and_append, BitVec.and_append, BitVec.and_append, BitVec.and_append]
  exact h

theorem bit_reserved (v : BitVec 3) : v.zeroExtend 8 &&& 0xF8#8 = 0#8 := by
  revert v
  decide

theorem byte_reserved (v : Byte) : v.zeroExtend 16 &&& 0xFF00#16 = 0#16 := by
  apply BitVec.eq_of_getLsbD_eq
  intro i hi
  have h : ∀ j, j < 16 → 8 ≤ j ∨ (0xFF00#16).getLsbD j = false := by decide
  rcases h i hi with h | h <;> simp [h]

/-- The two checks of a command's line, written out. -/
theorem Instr.wellFormed_iff (i : Instr) : i.wellFormed = true ↔
    i.operands.length = i.mnemonic.operandLimits.length ∧
      ∀ p ∈ i.operands.zip i.mnemonic.operandLimits, p.1 < p.2 := by
  simp [Instr.wellFormed, AsmLine.wellFormed, AsmLine.arityOk, AsmLine.operandsFit, Instr.toAsm]

namespace Laws.WordForm

/-- The command is well formed; the line that spells it assembles to it; its word selects its row of the opcode table,
and its reserved bits are 0 (30_encoding R74, R77, R82). -/
def Statement (i : Instr) : Prop :=
  i.wellFormed = true ∧ i.toAsm.assemble = some i ∧
    lookupOpcode (fieldOP (encode i)) = some i.mnemonic ∧ encode i &&& ~~~ i.mnemonic.readMask = 0

/-- From the two checks, the placing of the operands, and the word's fields. -/
theorem of_parts {i : Instr} {op n : BitVec 8} {a b c : Word16} {op' n' : BitVec 8} {a' b' c' : Word16}
    (hw : i.operands.length = i.mnemonic.operandLimits.length ∧
      ∀ p ∈ i.operands.zip i.mnemonic.operandLimits, p.1 < p.2)
    (hp : i.toAsm.place = some i) (he : encode i = packWord op n a b c)
    (ho : lookupOpcode op = some i.mnemonic) (hm : ~~~ i.mnemonic.readMask = packWord op' n' a' b' c')
    (hz : packWord (op &&& op') (n &&& n') (a &&& a') (b &&& b') (c &&& c') = 0) : Statement i := by
  have hwf := (Instr.wellFormed_iff i).2 hw
  refine ⟨hwf, ?_, ?_, ?_⟩
  · rw [AsmLine.assemble, if_pos (by exact hwf), hp]
  · rw [he, fieldOP_packWord, ho]
  · rw [he, hm, packWord_and, hz]

theorem rgnSet (base len : Word16) : Statement (.rgnSet base len) := by
  refine of_parts ?_ ?_ rfl rfl (show ~~~ Mnemonic.rgnSet.readMask = packWord 0 0xFF#8 0 0 0xFFFF#16 by decide) ?_
  · simp [Instr.operands, Instr.mnemonic, Mnemonic.operandLimits, base.isLt, len.isLt]
  · simp [AsmLine.place, Instr.toAsm, Instr.mnemonic, Instr.operands]
  · simp [packWord]

theorem curSeek (byte : Word16) (bit : BitVec 3) : Statement (.curSeek byte bit) := by
  refine of_parts ?_ ?_ rfl rfl (show ~~~ Mnemonic.curSeek.readMask = packWord 0 0xF8#8 0 0xFFFF#16 0xFFFF#16 by decide) ?_
  · simp [Instr.operands, Instr.mnemonic, Mnemonic.operandLimits, byte.isLt, bit.isLt]
  · simp [AsmLine.place, Instr.toAsm, Instr.mnemonic, Instr.operands]
  · rw [bit_reserved]; simp [packWord]

theorem regRd (idx : BitVec 8) : Statement (.regRd idx) := by
  refine of_parts ?_ ?_ rfl rfl (show ~~~ Mnemonic.regRd.readMask = packWord 0 0 0xFFFF#16 0xFFFF#16 0xFFFF#16 by decide) ?_
  · simp [Instr.operands, Instr.mnemonic, Mnemonic.operandLimits, idx.isLt]
  · simp [AsmLine.place, Instr.toAsm, Instr.mnemonic, Instr.operands]
  · simp [packWord]

theorem memRdb (off : Word16) : Statement (.memRdb off) := by
  refine of_parts ?_ ?_ rfl rfl (show ~~~ Mnemonic.memRdb.readMask = packWord 0 0xFF#8 0 0xFFFF#16 0xFFFF#16 by decide) ?_
  · simp [Instr.operands, Instr.mnemonic, Mnemonic.operandLimits, off.isLt]
  · simp [AsmLine.place, Instr.toAsm, Instr.mnemonic, Instr.operands]
  · simp [packWord]

theorem memWrb (off : Word16) (val : Byte) : Statement (.memWrb off val) := by
  refine of_parts ?_ ?_ rfl rfl (show ~~~ Mnemonic.memWrb.readMask = packWord 0 0xFF#8 0 0xFFFF#16 0xFF00#16 by decide) ?_
  · simp [Instr.operands, Instr.mnemonic, Mnemonic.operandLimits, off.isLt, val.isLt]
  · simp [AsmLine.place, Instr.toAsm, Instr.mnemonic, Instr.operands]
  · rw [byte_reserved]; simp [packWord]

theorem bitRd (n : BitVec 8) : Statement (.bitRd n) := by
  refine of_parts ?_ ?_ rfl rfl (show ~~~ Mnemonic.bitRd.readMask = packWord 0 0 0xFFFF#16 0xFFFF#16 0xFFFF#16 by decide) ?_
  · simp [Instr.operands, Instr.mnemonic, Mnemonic.operandLimits, n.isLt]
  · simp [AsmLine.place, Instr.toAsm, Instr.mnemonic, Instr.operands]
  · simp [packWord]

theorem bitRdb : Statement .bitRdb := by
  refine of_parts ?_ ?_ rfl rfl (show ~~~ Mnemonic.bitRdb.readMask = packWord 0 0xFF#8 0xFFFF#16 0xFFFF#16 0xFFFF#16 by decide) ?_
  · decide
  · rfl
  · decide

theorem bitWr (n : BitVec 8) (val : Byte) : Statement (.bitWr n val) := by
  refine of_parts ?_ ?_ rfl rfl (show ~~~ Mnemonic.bitWr.readMask = packWord 0 0 0xFFFF#16 0xFFFF#16 0xFF00#16 by decide) ?_
  · simp [Instr.operands, Instr.mnemonic, Mnemonic.operandLimits, n.isLt, val.isLt]
  · simp [AsmLine.place, Instr.toAsm, Instr.mnemonic, Instr.operands]
  · rw [byte_reserved]; simp [packWord]

theorem nbDec (off : Word16) : Statement (.nbDec off) := by
  refine of_parts ?_ ?_ rfl rfl (show ~~~ Mnemonic.nbDec.readMask = packWord 0 0xFF#8 0 0xFFFF#16 0xFFFF#16 by decide) ?_
  · simp [Instr.operands, Instr.mnemonic, Mnemonic.operandLimits, off.isLt]
  · simp [AsmLine.place, Instr.toAsm, Instr.mnemonic, Instr.operands]
  · simp [packWord]

theorem nbEnc (off pid blp : Word16) : Statement (.nbEnc off pid blp) := by
  refine of_parts ?_ ?_ rfl rfl (show ~~~ Mnemonic.nbEnc.readMask = packWord 0 0xFF#8 0 0 0 by decide) ?_
  · simp [Instr.operands, Instr.mnemonic, Mnemonic.operandLimits, off.isLt, pid.isLt, blp.isLt]
  · simp [AsmLine.place, Instr.toAsm, Instr.mnemonic, Instr.operands]
  · simp [packWord]

theorem nrDec (off len : Word16) : Statement (.nrDec off len) := by
  refine of_parts ?_ ?_ rfl rfl (show ~~~ Mnemonic.nrDec.readMask = packWord 0 0xFF#8 0 0 0xFFFF#16 by decide) ?_
  · simp [Instr.operands, Instr.mnemonic, Mnemonic.operandLimits, off.isLt, len.isLt]
  · simp [AsmLine.place, Instr.toAsm, Instr.mnemonic, Instr.operands]
  · simp [packWord]

theorem nrStart (off : Word16) : Statement (.nrStart off) := by
  refine of_parts ?_ ?_ rfl rfl (show ~~~ Mnemonic.nrStart.readMask = packWord 0 0xFF#8 0 0xFFFF#16 0xFFFF#16 by decide) ?_
  · simp [Instr.operands, Instr.mnemonic, Mnemonic.operandLimits, off.isLt]
  · simp [AsmLine.place, Instr.toAsm, Instr.mnemonic, Instr.operands]
  · simp [packWord]

theorem nrPush (sn : Word16) : Statement (.nrPush sn) := by
  refine of_parts ?_ ?_ rfl rfl (show ~~~ Mnemonic.nrPush.readMask = packWord 0 0xFF#8 0xFFFF#16 0 0xFFFF#16 by decide) ?_
  · simp [Instr.operands, Instr.mnemonic, Mnemonic.operandLimits, sn.isLt]
  · simp [AsmLine.place, Instr.toAsm, Instr.mnemonic, Instr.operands]
  · simp [packWord]

theorem nrFlush : Statement .nrFlush := by
  refine of_parts ?_ ?_ rfl rfl (show ~~~ Mnemonic.nrFlush.readMask = packWord 0 0xFF#8 0xFFFF#16 0xFFFF#16 0xFFFF#16 by decide) ?_
  · decide
  · rfl
  · decide

end Laws.WordForm

end Sys2Proof
end

