-- ==== Sys2Proof/Laws/State.lean ====
section
/-! SUPPORT. What each update of the state leaves in each field: one lemma a field and update, so that no later proof
unfolds a record update. -/

namespace Sys2Proof.Machine.State

variable (s : State)

/-! ## `raise` -/

@[simp] theorem raise_memBytes (e : ErrorKind) : (s.raise e).memBytes = s.memBytes := rfl
@[simp] theorem raise_mem (e : ErrorKind) : (s.raise e).mem = s.mem := rfl
@[simp] theorem raise_rbase (e : ErrorKind) : (s.raise e).rbase = s.rbase := rfl
@[simp] theorem raise_rlen (e : ErrorKind) : (s.raise e).rlen = s.rlen := rfl
@[simp] theorem raise_byteIdx (e : ErrorKind) : (s.raise e).byteIdx = s.byteIdx := rfl
@[simp] theorem raise_bitIdx (e : ErrorKind) : (s.raise e).bitIdx = s.bitIdx := rfl
@[simp] theorem raise_eValid (e : ErrorKind) : (s.raise e).eValid = s.eValid := rfl
@[simp] theorem raise_ePid (e : ErrorKind) : (s.raise e).ePid = s.ePid := rfl
@[simp] theorem raise_eBlp (e : ErrorKind) : (s.raise e).eBlp = s.eBlp := rfl
@[simp] theorem raise_eLast (e : ErrorKind) : (s.raise e).eLast = s.eLast := rfl
@[simp] theorem raise_woff (e : ErrorKind) : (s.raise e).woff = s.woff := rfl
@[simp] theorem raise_blkcnt (e : ErrorKind) : (s.raise e).blkcnt = s.blkcnt := rfl
@[simp] theorem raise_esr (e : ErrorKind) : (s.raise e).esr = esrWith s.esr e := rfl
@[simp] theorem raise_resets (e : ErrorKind) : (s.raise e).resets = s.resets := rfl
@[simp] theorem raise_inputs (e : ErrorKind) : (s.raise e).inputs = s.inputs := rfl
@[simp] theorem raise_rsps (e : ErrorKind) : (s.raise e).rsps = s.rsps ++ [⟨e.status, []⟩] := rfl

/-! ## `respond` -/

@[simp] theorem respond_memBytes (d : List DataPair) : (s.respond d).memBytes = s.memBytes := rfl
@[simp] theorem respond_mem (d : List DataPair) : (s.respond d).mem = s.mem := rfl
@[simp] theorem respond_rbase (d : List DataPair) : (s.respond d).rbase = s.rbase := rfl
@[simp] theorem respond_rlen (d : List DataPair) : (s.respond d).rlen = s.rlen := rfl
@[simp] theorem respond_byteIdx (d : List DataPair) : (s.respond d).byteIdx = s.byteIdx := rfl
@[simp] theorem respond_bitIdx (d : List DataPair) : (s.respond d).bitIdx = s.bitIdx := rfl
@[simp] theorem respond_eValid (d : List DataPair) : (s.respond d).eValid = s.eValid := rfl
@[simp] theorem respond_ePid (d : List DataPair) : (s.respond d).ePid = s.ePid := rfl
@[simp] theorem respond_eBlp (d : List DataPair) : (s.respond d).eBlp = s.eBlp := rfl
@[simp] theorem respond_eLast (d : List DataPair) : (s.respond d).eLast = s.eLast := rfl
@[simp] theorem respond_woff (d : List DataPair) : (s.respond d).woff = s.woff := rfl
@[simp] theorem respond_blkcnt (d : List DataPair) : (s.respond d).blkcnt = s.blkcnt := rfl
@[simp] theorem respond_esr (d : List DataPair) : (s.respond d).esr = s.esr := rfl
@[simp] theorem respond_resets (d : List DataPair) : (s.respond d).resets = s.resets := rfl
@[simp] theorem respond_inputs (d : List DataPair) : (s.respond d).inputs = s.inputs := rfl
@[simp] theorem respond_rsps (d : List DataPair) : (s.respond d).rsps = s.rsps ++ [⟨.ok, d⟩] := rfl

/-! ## `memWrite` -/

@[simp] theorem memWrite_memBytes (a n v : Nat) : (s.memWrite a n v).memBytes = s.memBytes := rfl
@[simp] theorem memWrite_mem (a n v : Nat) : (s.memWrite a n v).mem = Memory.writeBE s.mem a n v := rfl
@[simp] theorem memWrite_rbase (a n v : Nat) : (s.memWrite a n v).rbase = s.rbase := rfl
@[simp] theorem memWrite_rlen (a n v : Nat) : (s.memWrite a n v).rlen = s.rlen := rfl
@[simp] theorem memWrite_byteIdx (a n v : Nat) : (s.memWrite a n v).byteIdx = s.byteIdx := rfl
@[simp] theorem memWrite_bitIdx (a n v : Nat) : (s.memWrite a n v).bitIdx = s.bitIdx := rfl
@[simp] theorem memWrite_eValid (a n v : Nat) : (s.memWrite a n v).eValid = s.eValid := rfl
@[simp] theorem memWrite_ePid (a n v : Nat) : (s.memWrite a n v).ePid = s.ePid := rfl
@[simp] theorem memWrite_eBlp (a n v : Nat) : (s.memWrite a n v).eBlp = s.eBlp := rfl
@[simp] theorem memWrite_eLast (a n v : Nat) : (s.memWrite a n v).eLast = s.eLast := rfl
@[simp] theorem memWrite_woff (a n v : Nat) : (s.memWrite a n v).woff = s.woff := rfl
@[simp] theorem memWrite_blkcnt (a n v : Nat) : (s.memWrite a n v).blkcnt = s.blkcnt := rfl
@[simp] theorem memWrite_esr (a n v : Nat) : (s.memWrite a n v).esr = s.esr := rfl
@[simp] theorem memWrite_resets (a n v : Nat) : (s.memWrite a n v).resets = s.resets := rfl
@[simp] theorem memWrite_inputs (a n v : Nat) : (s.memWrite a n v).inputs = s.inputs := rfl
@[simp] theorem memWrite_rsps (a n v : Nat) : (s.memWrite a n v).rsps = s.rsps := rfl

/-! ## `setRegion` -/

@[simp] theorem setRegion_memBytes (base len : Word16) : (s.setRegion base len).memBytes = s.memBytes := rfl
@[simp] theorem setRegion_mem (base len : Word16) : (s.setRegion base len).mem = s.mem := rfl
@[simp] theorem setRegion_rbase (base len : Word16) : (s.setRegion base len).rbase = base := rfl
@[simp] theorem setRegion_rlen (base len : Word16) : (s.setRegion base len).rlen = len := rfl
@[simp] theorem setRegion_byteIdx (base len : Word16) : (s.setRegion base len).byteIdx = 0 := rfl
@[simp] theorem setRegion_bitIdx (base len : Word16) : (s.setRegion base len).bitIdx = 0 := rfl
@[simp] theorem setRegion_eValid (base len : Word16) : (s.setRegion base len).eValid = s.eValid := rfl
@[simp] theorem setRegion_ePid (base len : Word16) : (s.setRegion base len).ePid = s.ePid := rfl
@[simp] theorem setRegion_eBlp (base len : Word16) : (s.setRegion base len).eBlp = s.eBlp := rfl
@[simp] theorem setRegion_eLast (base len : Word16) : (s.setRegion base len).eLast = s.eLast := rfl
@[simp] theorem setRegion_woff (base len : Word16) : (s.setRegion base len).woff = s.woff := rfl
@[simp] theorem setRegion_blkcnt (base len : Word16) : (s.setRegion base len).blkcnt = s.blkcnt := rfl
@[simp] theorem setRegion_esr (base len : Word16) : (s.setRegion base len).esr = s.esr := rfl
@[simp] theorem setRegion_resets (base len : Word16) : (s.setRegion base len).resets = s.resets := rfl
@[simp] theorem setRegion_inputs (base len : Word16) : (s.setRegion base len).inputs = s.inputs := rfl
@[simp] theorem setRegion_rsps (base len : Word16) : (s.setRegion base len).rsps = s.rsps := rfl

/-! ## `setCursor` -/

@[simp] theorem setCursor_memBytes (byte : Word16) (bit : BitVec 3) : (s.setCursor byte bit).memBytes = s.memBytes := rfl
@[simp] theorem setCursor_mem (byte : Word16) (bit : BitVec 3) : (s.setCursor byte bit).mem = s.mem := rfl
@[simp] theorem setCursor_rbase (byte : Word16) (bit : BitVec 3) : (s.setCursor byte bit).rbase = s.rbase := rfl
@[simp] theorem setCursor_rlen (byte : Word16) (bit : BitVec 3) : (s.setCursor byte bit).rlen = s.rlen := rfl
@[simp] theorem setCursor_byteIdx (byte : Word16) (bit : BitVec 3) : (s.setCursor byte bit).byteIdx = byte := rfl
@[simp] theorem setCursor_bitIdx (byte : Word16) (bit : BitVec 3) : (s.setCursor byte bit).bitIdx = bit := rfl
@[simp] theorem setCursor_eValid (byte : Word16) (bit : BitVec 3) : (s.setCursor byte bit).eValid = s.eValid := rfl
@[simp] theorem setCursor_ePid (byte : Word16) (bit : BitVec 3) : (s.setCursor byte bit).ePid = s.ePid := rfl
@[simp] theorem setCursor_eBlp (byte : Word16) (bit : BitVec 3) : (s.setCursor byte bit).eBlp = s.eBlp := rfl
@[simp] theorem setCursor_eLast (byte : Word16) (bit : BitVec 3) : (s.setCursor byte bit).eLast = s.eLast := rfl
@[simp] theorem setCursor_woff (byte : Word16) (bit : BitVec 3) : (s.setCursor byte bit).woff = s.woff := rfl
@[simp] theorem setCursor_blkcnt (byte : Word16) (bit : BitVec 3) : (s.setCursor byte bit).blkcnt = s.blkcnt := rfl
@[simp] theorem setCursor_esr (byte : Word16) (bit : BitVec 3) : (s.setCursor byte bit).esr = s.esr := rfl
@[simp] theorem setCursor_resets (byte : Word16) (bit : BitVec 3) : (s.setCursor byte bit).resets = s.resets := rfl
@[simp] theorem setCursor_inputs (byte : Word16) (bit : BitVec 3) : (s.setCursor byte bit).inputs = s.inputs := rfl
@[simp] theorem setCursor_rsps (byte : Word16) (bit : BitVec 3) : (s.setCursor byte bit).rsps = s.rsps := rfl

/-! ## `advance` -/

@[simp] theorem advance_memBytes (n : Nat) : (s.advance n).memBytes = s.memBytes := rfl
@[simp] theorem advance_mem (n : Nat) : (s.advance n).mem = s.mem := rfl
@[simp] theorem advance_rbase (n : Nat) : (s.advance n).rbase = s.rbase := rfl
@[simp] theorem advance_rlen (n : Nat) : (s.advance n).rlen = s.rlen := rfl
@[simp] theorem advance_byteIdx (n : Nat) : (s.advance n).byteIdx = BitVec.ofNat 16 ((s.bitPos + n) / 8) := rfl
@[simp] theorem advance_bitIdx (n : Nat) : (s.advance n).bitIdx = BitVec.ofNat 3 ((s.bitPos + n) % 8) := rfl
@[simp] theorem advance_eValid (n : Nat) : (s.advance n).eValid = s.eValid := rfl
@[simp] theorem advance_ePid (n : Nat) : (s.advance n).ePid = s.ePid := rfl
@[simp] theorem advance_eBlp (n : Nat) : (s.advance n).eBlp = s.eBlp := rfl
@[simp] theorem advance_eLast (n : Nat) : (s.advance n).eLast = s.eLast := rfl
@[simp] theorem advance_woff (n : Nat) : (s.advance n).woff = s.woff := rfl
@[simp] theorem advance_blkcnt (n : Nat) : (s.advance n).blkcnt = s.blkcnt := rfl
@[simp] theorem advance_esr (n : Nat) : (s.advance n).esr = s.esr := rfl
@[simp] theorem advance_resets (n : Nat) : (s.advance n).resets = s.resets := rfl
@[simp] theorem advance_inputs (n : Nat) : (s.advance n).inputs = s.inputs := rfl
@[simp] theorem advance_rsps (n : Nat) : (s.advance n).rsps = s.rsps := rfl

/-! ## `startRun` -/

@[simp] theorem startRun_memBytes (off : Word16) : (s.startRun off).memBytes = s.memBytes := rfl
@[simp] theorem startRun_mem (off : Word16) : (s.startRun off).mem = s.mem := rfl
@[simp] theorem startRun_rbase (off : Word16) : (s.startRun off).rbase = s.rbase := rfl
@[simp] theorem startRun_rlen (off : Word16) : (s.startRun off).rlen = s.rlen := rfl
@[simp] theorem startRun_byteIdx (off : Word16) : (s.startRun off).byteIdx = s.byteIdx := rfl
@[simp] theorem startRun_bitIdx (off : Word16) : (s.startRun off).bitIdx = s.bitIdx := rfl
@[simp] theorem startRun_eValid (off : Word16) : (s.startRun off).eValid = 0 := rfl
@[simp] theorem startRun_ePid (off : Word16) : (s.startRun off).ePid = 0 := rfl
@[simp] theorem startRun_eBlp (off : Word16) : (s.startRun off).eBlp = 0 := rfl
@[simp] theorem startRun_eLast (off : Word16) : (s.startRun off).eLast = 0 := rfl
@[simp] theorem startRun_woff (off : Word16) : (s.startRun off).woff = off := rfl
@[simp] theorem startRun_blkcnt (off : Word16) : (s.startRun off).blkcnt = 0 := rfl
@[simp] theorem startRun_esr (off : Word16) : (s.startRun off).esr = s.esr := rfl
@[simp] theorem startRun_resets (off : Word16) : (s.startRun off).resets = s.resets := rfl
@[simp] theorem startRun_inputs (off : Word16) : (s.startRun off).inputs = s.inputs := rfl
@[simp] theorem startRun_rsps (off : Word16) : (s.startRun off).rsps = s.rsps := rfl

/-! ## `openBlock` -/

@[simp] theorem openBlock_memBytes (sn : Word16) : (s.openBlock sn).memBytes = s.memBytes := rfl
@[simp] theorem openBlock_mem (sn : Word16) : (s.openBlock sn).mem = s.mem := rfl
@[simp] theorem openBlock_rbase (sn : Word16) : (s.openBlock sn).rbase = s.rbase := rfl
@[simp] theorem openBlock_rlen (sn : Word16) : (s.openBlock sn).rlen = s.rlen := rfl
@[simp] theorem openBlock_byteIdx (sn : Word16) : (s.openBlock sn).byteIdx = s.byteIdx := rfl
@[simp] theorem openBlock_bitIdx (sn : Word16) : (s.openBlock sn).bitIdx = s.bitIdx := rfl
@[simp] theorem openBlock_eValid (sn : Word16) : (s.openBlock sn).eValid = 1 := rfl
@[simp] theorem openBlock_ePid (sn : Word16) : (s.openBlock sn).ePid = sn := rfl
@[simp] theorem openBlock_eBlp (sn : Word16) : (s.openBlock sn).eBlp = 0 := rfl
@[simp] theorem openBlock_eLast (sn : Word16) : (s.openBlock sn).eLast = sn := rfl
@[simp] theorem openBlock_woff (sn : Word16) : (s.openBlock sn).woff = s.woff := rfl
@[simp] theorem openBlock_blkcnt (sn : Word16) : (s.openBlock sn).blkcnt = s.blkcnt := rfl
@[simp] theorem openBlock_esr (sn : Word16) : (s.openBlock sn).esr = s.esr := rfl
@[simp] theorem openBlock_resets (sn : Word16) : (s.openBlock sn).resets = s.resets := rfl
@[simp] theorem openBlock_inputs (sn : Word16) : (s.openBlock sn).inputs = s.inputs := rfl
@[simp] theorem openBlock_rsps (sn : Word16) : (s.openBlock sn).rsps = s.rsps := rfl

/-! ## `extendBlock` -/

@[simp] theorem extendBlock_memBytes (o : Nat) (sn : Word16) : (s.extendBlock o sn).memBytes = s.memBytes := rfl
@[simp] theorem extendBlock_mem (o : Nat) (sn : Word16) : (s.extendBlock o sn).mem = s.mem := rfl
@[simp] theorem extendBlock_rbase (o : Nat) (sn : Word16) : (s.extendBlock o sn).rbase = s.rbase := rfl
@[simp] theorem extendBlock_rlen (o : Nat) (sn : Word16) : (s.extendBlock o sn).rlen = s.rlen := rfl
@[simp] theorem extendBlock_byteIdx (o : Nat) (sn : Word16) : (s.extendBlock o sn).byteIdx = s.byteIdx := rfl
@[simp] theorem extendBlock_bitIdx (o : Nat) (sn : Word16) : (s.extendBlock o sn).bitIdx = s.bitIdx := rfl
@[simp] theorem extendBlock_eValid (o : Nat) (sn : Word16) : (s.extendBlock o sn).eValid = s.eValid := rfl
@[simp] theorem extendBlock_ePid (o : Nat) (sn : Word16) : (s.extendBlock o sn).ePid = s.ePid := rfl
@[simp] theorem extendBlock_eBlp (o : Nat) (sn : Word16) : (s.extendBlock o sn).eBlp = s.eBlp ||| offsetBit o := rfl
@[simp] theorem extendBlock_eLast (o : Nat) (sn : Word16) : (s.extendBlock o sn).eLast = sn := rfl
@[simp] theorem extendBlock_woff (o : Nat) (sn : Word16) : (s.extendBlock o sn).woff = s.woff := rfl
@[simp] theorem extendBlock_blkcnt (o : Nat) (sn : Word16) : (s.extendBlock o sn).blkcnt = s.blkcnt := rfl
@[simp] theorem extendBlock_esr (o : Nat) (sn : Word16) : (s.extendBlock o sn).esr = s.esr := rfl
@[simp] theorem extendBlock_resets (o : Nat) (sn : Word16) : (s.extendBlock o sn).resets = s.resets := rfl
@[simp] theorem extendBlock_inputs (o : Nat) (sn : Word16) : (s.extendBlock o sn).inputs = s.inputs := rfl
@[simp] theorem extendBlock_rsps (o : Nat) (sn : Word16) : (s.extendBlock o sn).rsps = s.rsps := rfl

/-! ## `closeBlock` -/

@[simp] theorem closeBlock_memBytes : (s.closeBlock).memBytes = s.memBytes := rfl
@[simp] theorem closeBlock_mem : (s.closeBlock).mem = s.mem := rfl
@[simp] theorem closeBlock_rbase : (s.closeBlock).rbase = s.rbase := rfl
@[simp] theorem closeBlock_rlen : (s.closeBlock).rlen = s.rlen := rfl
@[simp] theorem closeBlock_byteIdx : (s.closeBlock).byteIdx = s.byteIdx := rfl
@[simp] theorem closeBlock_bitIdx : (s.closeBlock).bitIdx = s.bitIdx := rfl
@[simp] theorem closeBlock_eValid : (s.closeBlock).eValid = 0 := rfl
@[simp] theorem closeBlock_ePid : (s.closeBlock).ePid = s.ePid := rfl
@[simp] theorem closeBlock_eBlp : (s.closeBlock).eBlp = s.eBlp := rfl
@[simp] theorem closeBlock_eLast : (s.closeBlock).eLast = s.eLast := rfl
@[simp] theorem closeBlock_woff : (s.closeBlock).woff = s.woff := rfl
@[simp] theorem closeBlock_blkcnt : (s.closeBlock).blkcnt = s.blkcnt := rfl
@[simp] theorem closeBlock_esr : (s.closeBlock).esr = s.esr := rfl
@[simp] theorem closeBlock_resets : (s.closeBlock).resets = s.resets := rfl
@[simp] theorem closeBlock_inputs : (s.closeBlock).inputs = s.inputs := rfl
@[simp] theorem closeBlock_rsps : (s.closeBlock).rsps = s.rsps := rfl

/-! ## `countBlock` -/

@[simp] theorem countBlock_memBytes : (s.countBlock).memBytes = s.memBytes := rfl
@[simp] theorem countBlock_mem : (s.countBlock).mem = s.mem := rfl
@[simp] theorem countBlock_rbase : (s.countBlock).rbase = s.rbase := rfl
@[simp] theorem countBlock_rlen : (s.countBlock).rlen = s.rlen := rfl
@[simp] theorem countBlock_byteIdx : (s.countBlock).byteIdx = s.byteIdx := rfl
@[simp] theorem countBlock_bitIdx : (s.countBlock).bitIdx = s.bitIdx := rfl
@[simp] theorem countBlock_eValid : (s.countBlock).eValid = s.eValid := rfl
@[simp] theorem countBlock_ePid : (s.countBlock).ePid = s.ePid := rfl
@[simp] theorem countBlock_eBlp : (s.countBlock).eBlp = s.eBlp := rfl
@[simp] theorem countBlock_eLast : (s.countBlock).eLast = s.eLast := rfl
@[simp] theorem countBlock_woff : (s.countBlock).woff = s.woff + 4 := rfl
@[simp] theorem countBlock_blkcnt : (s.countBlock).blkcnt = s.blkcnt + 1 := rfl
@[simp] theorem countBlock_esr : (s.countBlock).esr = s.esr := rfl
@[simp] theorem countBlock_resets : (s.countBlock).resets = s.resets := rfl
@[simp] theorem countBlock_inputs : (s.countBlock).inputs = s.inputs := rfl
@[simp] theorem countBlock_rsps : (s.countBlock).rsps = s.rsps := rfl

/-! ## `popEvent` -/

@[simp] theorem popEvent_memBytes : (s.popEvent).memBytes = s.memBytes := rfl
@[simp] theorem popEvent_mem : (s.popEvent).mem = s.mem := rfl
@[simp] theorem popEvent_rbase : (s.popEvent).rbase = s.rbase := rfl
@[simp] theorem popEvent_rlen : (s.popEvent).rlen = s.rlen := rfl
@[simp] theorem popEvent_byteIdx : (s.popEvent).byteIdx = s.byteIdx := rfl
@[simp] theorem popEvent_bitIdx : (s.popEvent).bitIdx = s.bitIdx := rfl
@[simp] theorem popEvent_eValid : (s.popEvent).eValid = s.eValid := rfl
@[simp] theorem popEvent_ePid : (s.popEvent).ePid = s.ePid := rfl
@[simp] theorem popEvent_eBlp : (s.popEvent).eBlp = s.eBlp := rfl
@[simp] theorem popEvent_eLast : (s.popEvent).eLast = s.eLast := rfl
@[simp] theorem popEvent_woff : (s.popEvent).woff = s.woff := rfl
@[simp] theorem popEvent_blkcnt : (s.popEvent).blkcnt = s.blkcnt := rfl
@[simp] theorem popEvent_esr : (s.popEvent).esr = s.esr := rfl
@[simp] theorem popEvent_resets : (s.popEvent).resets = s.resets := rfl
@[simp] theorem popEvent_inputs : (s.popEvent).inputs = s.inputs.tail := rfl
@[simp] theorem popEvent_rsps : (s.popEvent).rsps = s.rsps := rfl

/-! ## `applyReset` -/

@[simp] theorem applyReset_memBytes : (s.applyReset).memBytes = s.memBytes := rfl
@[simp] theorem applyReset_mem : (s.applyReset).mem = [] := rfl
@[simp] theorem applyReset_rbase : (s.applyReset).rbase = 0 := rfl
@[simp] theorem applyReset_rlen : (s.applyReset).rlen = 0 := rfl
@[simp] theorem applyReset_byteIdx : (s.applyReset).byteIdx = 0 := rfl
@[simp] theorem applyReset_bitIdx : (s.applyReset).bitIdx = 0 := rfl
@[simp] theorem applyReset_eValid : (s.applyReset).eValid = 0 := rfl
@[simp] theorem applyReset_ePid : (s.applyReset).ePid = 0 := rfl
@[simp] theorem applyReset_eBlp : (s.applyReset).eBlp = 0 := rfl
@[simp] theorem applyReset_eLast : (s.applyReset).eLast = 0 := rfl
@[simp] theorem applyReset_woff : (s.applyReset).woff = 0 := rfl
@[simp] theorem applyReset_blkcnt : (s.applyReset).blkcnt = 0 := rfl
@[simp] theorem applyReset_esr : (s.applyReset).esr = 0 := rfl
@[simp] theorem applyReset_resets : (s.applyReset).resets = s.resets + 1 := rfl
@[simp] theorem applyReset_inputs : (s.applyReset).inputs = s.inputs := rfl
@[simp] theorem applyReset_rsps : (s.applyReset).rsps = [] := rfl

end Sys2Proof.Machine.State
end

