-- ==== Sys2Proof/Laws/Memory.lean ====
section
/-! SUPPORT. The memory: read after write, writes leave other bytes alone, and the canonical form is kept
(10_state R23; 20_memory R51, R55, R56). -/

namespace Sys2Proof.Machine

namespace Memory

theorem lookup_insert (a b : Nat) (v : Byte) (m : Memory) :
    lookup b (insert a v m) = if b = a then some v else lookup b m := by
  induction m with
  | nil => simp [insert, lookup]
  | cons c rest ih =>
    obtain ⟨k, w⟩ := c
    unfold insert
    split
    · simp [lookup]
    · split
      · subst_vars
        simp only [lookup]
        split <;> rfl
      · simp only [lookup, ih]
        split
        · subst_vars
          rw [if_neg (by omega)]
        · rfl

theorem mem_insert {a : Nat} {v : Byte} {m : Memory} {c : Host.Cell} (h : c ∈ insert a v m) :
    c = (a, v) ∨ c ∈ m := by
  induction m with
  | nil => simpa [insert] using h
  | cons d rest ih =>
    unfold insert at h
    split at h
    · simpa using h
    · split at h
      · rcases List.mem_cons.1 h with h | h
        · exact .inl h
        · exact .inr (List.mem_cons_of_mem _ h)
      · rcases List.mem_cons.1 h with h | h
        · exact .inr (h ▸ List.mem_cons_self)
        · rcases ih h with h | h
          · exact .inl h
          · exact .inr (List.mem_cons_of_mem _ h)

theorem wf_insert (a : Nat) (v : Byte) {m : Memory} (h : wf m) : wf (insert a v m) := by
  induction m with
  | nil => simp [wf, insert]
  | cons c rest ih =>
    obtain ⟨k, w⟩ := c
    obtain ⟨hk, hrest⟩ := List.pairwise_cons.1 h
    unfold insert
    split
    · rename_i hlt
      refine List.pairwise_cons.2 ⟨fun x hx => ?_, h⟩
      rcases List.mem_cons.1 hx with rfl | hx
      · exact hlt
      · exact Nat.lt_trans hlt (hk x hx)
    · split
      · subst_vars
        exact List.pairwise_cons.2 ⟨hk, hrest⟩
      · refine List.pairwise_cons.2 ⟨fun x hx => ?_, ih hrest⟩
        rcases mem_insert hx with rfl | hx
        · show k < a
          omega
        · exact hk x hx

theorem wf_writeBE (m : Memory) (a n v : Nat) (h : wf m) : wf (writeBE m a n v) := by
  induction n generalizing v with
  | zero => exact h
  | succ n ih => exact wf_insert _ _ (ih _)

theorem mem_writeBE {m : Memory} {a n v : Nat} {c : Host.Cell} (h : c ∈ writeBE m a n v) :
    c ∈ m ∨ (a ≤ c.1 ∧ c.1 < a + n) := by
  induction n generalizing v with
  | zero => exact .inl h
  | succ n ih =>
    rcases mem_insert h with rfl | h
    · exact .inr ⟨by simp, by simp⟩
    · rcases ih h with h | h
      · exact .inl h
      · exact .inr ⟨h.1, by omega⟩

/-- Byte `b` of a big-endian store of `n` bytes at `a` (20_memory R51). -/
theorem lookup_writeBE (m : Memory) (a n v b : Nat) :
    lookup b (writeBE m a n v) =
      if a ≤ b ∧ b < a + n then some (BitVec.ofNat 8 (v / 256 ^ (a + n - 1 - b))) else lookup b m := by
  induction n generalizing v with
  | zero => rw [if_neg (by omega)]; rfl
  | succ n ih =>
    rw [writeBE, lookup_insert, ih]
    by_cases hb : b = a + n
    · subst hb
      simp
    · rw [if_neg hb]
      by_cases hin : a ≤ b ∧ b < a + n
      · rw [if_pos hin, if_pos (by omega), Nat.div_div_eq_div_mul,
          show a + (n + 1) - 1 - b = (a + n - 1 - b) + 1 by omega, Nat.pow_succ, Nat.mul_comm 256]
      · rw [if_neg hin, if_neg (by omega)]

end Memory

namespace State

/-- Two states that list the same bytes after the same number of resets read alike. -/
theorem byteAt_congr {s t : State} (hm : s.mem = t.mem) (hr : s.resets = t.resets) (a : Nat) :
    s.byteAt a = t.byteAt a := by simp [byteAt, hm, hr]

/-! The updates that leave every byte alone. -/

@[simp] theorem byteAt_raise (s : State) (e : ErrorKind) (x : Nat) : (s.raise e).byteAt x = s.byteAt x := rfl
@[simp] theorem byteAt_respond (s : State) (d : List DataPair) (x : Nat) : (s.respond d).byteAt x = s.byteAt x := rfl
@[simp] theorem byteAt_setRegion (s : State) (base len : Word16) (x : Nat) : (s.setRegion base len).byteAt x = s.byteAt x := rfl
@[simp] theorem byteAt_setCursor (s : State) (byte : Word16) (bit : BitVec 3) (x : Nat) : (s.setCursor byte bit).byteAt x = s.byteAt x := rfl
@[simp] theorem byteAt_advance (s : State) (n : Nat) (x : Nat) : (s.advance n).byteAt x = s.byteAt x := rfl
@[simp] theorem byteAt_startRun (s : State) (off : Word16) (x : Nat) : (s.startRun off).byteAt x = s.byteAt x := rfl
@[simp] theorem byteAt_openBlock (s : State) (sn : Word16) (x : Nat) : (s.openBlock sn).byteAt x = s.byteAt x := rfl
@[simp] theorem byteAt_extendBlock (s : State) (o : Nat) (sn : Word16) (x : Nat) : (s.extendBlock o sn).byteAt x = s.byteAt x := rfl
@[simp] theorem byteAt_closeBlock (s : State) (x : Nat) : (s.closeBlock).byteAt x = s.byteAt x := rfl
@[simp] theorem byteAt_countBlock (s : State) (x : Nat) : (s.countBlock).byteAt x = s.byteAt x := rfl
@[simp] theorem byteAt_popEvent (s : State) (x : Nat) : (s.popEvent).byteAt x = s.byteAt x := rfl

theorem memRead_congr {s t : State} (hm : s.mem = t.mem) (hr : s.resets = t.resets) (a n : Nat) :
    s.memRead a n = t.memRead a n := by
  induction n with
  | zero => rfl
  | succ n ih => simp only [memRead, ih, byteAt_congr hm hr]

/-- Every byte after a store: the stored bytes are new, all others are as before. -/
theorem byteAt_memWrite (s : State) (a n v b : Nat) :
    (s.memWrite a n v).byteAt b =
      if a ≤ b ∧ b < a + n then BitVec.ofNat 8 (v / 256 ^ (a + n - 1 - b)) else s.byteAt b := by
  simp only [byteAt, memWrite_mem, memWrite_resets, Memory.lookup_writeBE]
  split <;> rfl

theorem byteAt_memWrite_of_outside {s : State} {a n v b : Nat} (h : b < a ∨ a + n ≤ b) :
    (s.memWrite a n v).byteAt b = s.byteAt b := by
  rw [byteAt_memWrite, if_neg (by omega)]

theorem memRead_lt (s : State) (a n : Nat) : s.memRead a n < 256 ^ n := by
  induction n with
  | zero => simp [memRead]
  | succ n ih =>
    have := (s.byteAt (a + n)).isLt
    rw [memRead, Nat.pow_succ]
    omega

theorem memRead_one (s : State) (a : Nat) : s.memRead a 1 = (s.byteAt a).toNat := by simp [memRead]

/-- A four-byte read, most significant byte first (20_memory R51). -/
theorem memRead_four (s : State) (a : Nat) :
    s.memRead a 4 = (s.byteAt a).toNat * 16777216 + (s.byteAt (a + 1)).toNat * 65536 +
      (s.byteAt (a + 2)).toNat * 256 + (s.byteAt (a + 3)).toNat := by
  simp only [memRead, Nat.add_zero]
  omega

/-- A read depends on the bytes read alone. -/
theorem memRead_of_bytes {s t : State} {a n : Nat} (h : ∀ b, a ≤ b → b < a + n → s.byteAt b = t.byteAt b) :
    s.memRead a n = t.memRead a n := by
  induction n with
  | zero => rfl
  | succ n ih =>
    rw [memRead, memRead, ih fun b h1 h2 => h b h1 (by omega), h (a + n) (by omega) (by omega)]

/-- Read after write gives the value written. -/
theorem memRead_memWrite_self (s : State) (a n v : Nat) : (s.memWrite a n v).memRead a n = v % 256 ^ n := by
  induction n generalizing v with
  | zero => simp [memRead, Nat.mod_one]
  | succ n ih =>
    have hrest : (s.memWrite a (n + 1) v).memRead a n = (s.memWrite a n (v / 256)).memRead a n :=
      memRead_of_bytes fun b h1 h2 => by
        rw [byteAt_memWrite, byteAt_memWrite, if_pos (by omega), if_pos (by omega),
          Nat.div_div_eq_div_mul, show a + (n + 1) - 1 - b = (a + n - 1 - b) + 1 by omega, Nat.pow_succ,
          Nat.mul_comm 256]
    have hlast : (s.memWrite a (n + 1) v).byteAt (a + n) = BitVec.ofNat 8 v := by
      rw [byteAt_memWrite, if_pos (by omega)]
      simp
    have hsplit : v % 256 ^ (n + 1) = v % 256 + 256 * (v / 256 % 256 ^ n) := by
      rw [show 256 ^ (n + 1) = 256 * 256 ^ n from Nat.pow_succ', Nat.mod_mul]
    rw [memRead, hrest, ih, hlast, BitVec.toNat_ofNat, hsplit]
    omega

/-- Read of bytes a write does not touch. -/
theorem memRead_memWrite_of_outside {s : State} {a n v b k : Nat} (h : b + k ≤ a ∨ a + n ≤ b) :
    (s.memWrite a n v).memRead b k = s.memRead b k :=
  memRead_of_bytes fun c h1 h2 => byteAt_memWrite_of_outside (by omega)

end State

end Sys2Proof.Machine
end

