-- ==== Sys2Proof/Machine/Invariant.lean ====
section
/-! DEFINITION. The state invariants of 10_state R32 (I1 to I5), with the bounds of the parameter (00_scope R8), the
memory's canonical form, and what `ESR` says of the responses (10_state R31; 00_scope R7). -/

namespace Sys2Proof.Machine

/-- `1 <= MEM_BYTES <= 65535` (00_scope R8). -/
def State.paramOk (s : State) : Prop := 1 ≤ s.memBytes ∧ s.memBytes ≤ 65535

/-- `M` lists existing bytes only, in canonical form (10_state R23). -/
def State.memOk (s : State) : Prop := Memory.wf s.mem ∧ ∀ c ∈ s.mem, c.1 < s.memBytes

/-- I1: `RBASE + RLEN <= MEM_BYTES`. -/
def State.regionOk (s : State) : Prop := s.rbase.toNat + s.rlen.toNat ≤ s.memBytes

/-- I2 and I3: `BYTE_IDX <= RLEN`, and `BYTE_IDX = RLEN` implies `BIT_IDX = 0`. -/
def State.cursorOk (s : State) : Prop :=
  s.byteIdx.toNat ≤ s.rlen.toNat ∧ (s.byteIdx = s.rlen → s.bitIdx = 0)

/-- I4: (a), (b), (c) of 10_state R28 while a block is open. -/
def State.encoderOk (s : State) : Prop :=
  s.eValid = 1 →
    (seqSub s.eLast s.ePid).toNat ≤ 16 ∧
    (∀ i, i < 16 → s.eBlp.getLsbD i = true → i + 1 ≤ (seqSub s.eLast s.ePid).toNat) ∧
    (s.eLast ≠ s.ePid → s.eBlp.getLsbD ((seqSub s.eLast s.ePid).toNat - 1) = true)

/-- I5, `BLKCNT <= 16383`, in the form that steps keep: each counted block lies below `WOFF` (10_state R29, R30). -/
def State.countOk (s : State) : Prop := 4 * s.blkcnt.toNat ≤ s.woff.toNat

/-- `ESR` holds exactly the errors of this run's responses (10_state R31; 00_scope R7). -/
def State.esrOk (s : State) : Prop :=
  ∀ e : ErrorKind, s.esr.getLsbD e.esrBit = true ↔ ∃ r ∈ s.rsps, r.status = e.status

/-- 10_state R32, and what it rests on. -/
structure State.Inv (s : State) : Prop where
  param : s.paramOk
  mem : s.memOk
  region : s.regionOk
  cursor : s.cursorOk
  encoder : s.encoderOk
  count : s.countOk
  esr : s.esrOk

end Sys2Proof.Machine
end

