-- ==== Sys2Proof/Laws/Ops.lean ====
section
/-! SUPPORT. One lemma a shared operation: everything it can do. Later proofs cite these and do not unfold the
operations. -/

namespace Sys2Proof.Machine

@[simp] theorem ok_bind {α β : Type} (a : α) (f : α → Except Stop β) : (Except.ok a >>= f) = f a := rfl

@[simp] theorem error_bind {α β : Type} (e : Stop) (f : α → Except Stop β) :
    ((Except.error e : Except Stop α) >>= f) = .error e := rfl

namespace State

/-! ## Ending a command -/

@[simp] theorem conclude_ok (s t : State) (d : List DataPair) : s.conclude (.ok (t, d)) = .next (t.respond d) := rfl

@[simp] theorem conclude_raised (s : State) (e : ErrorKind) :
    s.conclude (.error (.raised e)) = .next (s.raise e) := rfl

@[simp] theorem conclude_faulted (s : State) (f : Fault) : s.conclude (.error (.faulted f)) = .fault f := rfl

/-- A command that answers a next state responded or raised. -/
theorem conclude_next {s t : State} {r : Result} (h : s.conclude r = .next t) :
    (∃ u d, r = .ok (u, d) ∧ t = u.respond d) ∨ (∃ e, r = .error (.raised e) ∧ t = s.raise e) := by
  unfold conclude at h
  split at h
  · exact .inl ⟨_, _, rfl, by simpa using h.symm⟩
  · exact .inr ⟨_, rfl, by simpa using h.symm⟩
  · cases h

/-! ## The region -/

/-- The three outcomes of a bounds test (20_memory R55 to R57). -/
theorem rgnAddr_cases (s : State) (off n : Nat) :
    (s.rlen.toNat < off + n ∧ s.rgnAddr off n = .error (.raised .outOfBounds)) ∨
    (off + n ≤ s.rlen.toNat ∧ s.rbase.toNat + off + n ≤ s.memBytes ∧
      s.rgnAddr off n = .ok (s.rbase.toNat + off)) ∨
    (off + n ≤ s.rlen.toNat ∧ s.memBytes < s.rbase.toNat + off + n ∧
      s.rgnAddr off n = .error (.faulted (.noSuchAddress (s.rbase.toNat + off + n - 1)))) := by
  unfold rgnAddr physical
  by_cases h : off + n > s.rlen.toNat
  · exact .inl ⟨h, if_pos h⟩
  · by_cases hp : s.rbase.toNat + off + n ≤ s.memBytes
    · exact .inr (.inl ⟨by omega, hp, by rw [if_neg h, if_pos hp]; rfl⟩)
    · exact .inr (.inr ⟨by omega, by omega, by rw [if_neg h, if_neg hp]; rfl⟩)

theorem rgnAddr_outOfBounds {s : State} {off n : Nat} (h : s.rlen.toNat < off + n) :
    s.rgnAddr off n = .error (.raised .outOfBounds) := if_pos h

/-- Invariant I1 makes every address exist that passes the bounds test (20_memory R55). -/
theorem rgnAddr_inBounds {s : State} {off n : Nat} (hr : s.regionOk) (h : off + n ≤ s.rlen.toNat) :
    s.rgnAddr off n = .ok (s.rbase.toNat + off) := by
  unfold regionOk at hr
  rcases s.rgnAddr_cases off n with ⟨h', -⟩ | ⟨-, -, e⟩ | ⟨-, h', -⟩
  · omega
  · exact e
  · omega

theorem rgnRead_outOfBounds {s : State} {off n : Nat} (h : s.rlen.toNat < off + n) :
    s.rgnRead off n = .error (.raised .outOfBounds) := by simp [rgnRead, rgnAddr_outOfBounds h]

theorem rgnRead_inBounds {s : State} {off n : Nat} (hr : s.regionOk) (h : off + n ≤ s.rlen.toNat) :
    s.rgnRead off n = .ok (s.memRead (s.rbase.toNat + off) n) := by simp [rgnRead, rgnAddr_inBounds hr h]

theorem rgnWrite_outOfBounds {s : State} {off n v : Nat} (h : s.rlen.toNat < off + n) :
    s.rgnWrite off n v = .error (.raised .outOfBounds) := by simp [rgnWrite, rgnAddr_outOfBounds h]

theorem rgnWrite_inBounds {s : State} {off n v : Nat} (hr : s.regionOk) (h : off + n ≤ s.rlen.toNat) :
    s.rgnWrite off n v = .ok (s.memWrite (s.rbase.toNat + off) n v) := by simp [rgnWrite, rgnAddr_inBounds hr h]

/-- A store that went through is a store of the given bytes at `RBASE + off`, all of them existing. -/
theorem rgnWrite_ok {s t : State} {off n v : Nat} (h : s.rgnWrite off n v = .ok t) :
    off + n ≤ s.rlen.toNat ∧ s.rbase.toNat + off + n ≤ s.memBytes ∧ t = s.memWrite (s.rbase.toNat + off) n v := by
  rcases s.rgnAddr_cases off n with ⟨-, e⟩ | ⟨h1, h2, e⟩ | ⟨-, -, e⟩ <;> simp [rgnWrite, e] at h
  exact ⟨h1, h2, h.symm⟩

/-! ## The cursor -/

/-- The four outcomes of `BitCheck(n)` (41_bit_cursor R110). -/
theorem bitCheck_cases (s : State) (n : Nat) :
    ((n < 1 ∨ 8 < n ∨ 8 < s.bitIdx.toNat + n) ∧ s.bitCheck n = .error (.raised .boundaryError)) ∨
    (1 ≤ n ∧ s.bitIdx.toNat + n ≤ 8 ∧ s.rlen.toNat ≤ s.byteIdx.toNat ∧
      s.bitCheck n = .error (.raised .outOfBounds)) ∨
    (1 ≤ n ∧ s.bitIdx.toNat + n ≤ 8 ∧ s.byteIdx.toNat < s.rlen.toNat ∧ s.bitCheck n = .ok ()) := by
  unfold bitCheck
  by_cases h1 : n < 1 ∨ n > 8
  · exact .inl ⟨by omega, if_pos h1⟩
  · rw [if_neg h1]
    by_cases h2 : s.bitIdx.toNat + n > 8
    · exact .inl ⟨by omega, if_pos h2⟩
    · rw [if_neg h2]
      by_cases h3 : s.byteIdx.toNat ≥ s.rlen.toNat
      · exact .inr (.inl ⟨by omega, by omega, h3, if_pos h3⟩)
      · exact .inr (.inr ⟨by omega, by omega, by omega, if_neg h3⟩)

/-- Where an admitted access leaves the bit position (41_bit_cursor R114). -/
theorem bitPos_advance {s : State} {n : Nat} (h : s.byteIdx.toNat < 65535) (hn : s.bitIdx.toNat + n ≤ 8) :
    (s.advance n).bitPos = s.bitPos + n := by
  simp only [bitPos, advance_byteIdx, advance_bitIdx, BitVec.toNat_ofNat]
  omega

/-! ## The encoder -/

/-- `StoreBlock()` (43_nack_run R148): its outcome when there is no room, and when there is. -/
theorem storeBlock_outOfBounds {s : State} (h : s.rlen.toNat < s.woff.toNat + 4) :
    s.storeBlock = .error (.raised .outOfBounds) := by simp [storeBlock, rgnWrite_outOfBounds h]

theorem storeBlock_inBounds {s : State} (hr : s.regionOk) (h : s.woff.toNat + 4 ≤ s.rlen.toNat) :
    s.storeBlock =
      .ok (s.memWrite (s.rbase.toNat + s.woff.toNat) 4 s.openedBlock.toNat).countBlock := by
  simp [storeBlock, rgnWrite_inBounds hr h]

theorem storeBlock_ok {s t : State} (h : s.storeBlock = .ok t) :
    s.woff.toNat + 4 ≤ s.rlen.toNat ∧ s.rbase.toNat + s.woff.toNat + 4 ≤ s.memBytes ∧
      t = (s.memWrite (s.rbase.toNat + s.woff.toNat) 4 s.openedBlock.toNat).countBlock := by
  unfold storeBlock at h
  cases hw : s.rgnWrite s.woff.toNat 4 s.openedBlock.toNat with
  | error e => simp [hw] at h
  | ok u =>
    obtain ⟨h1, h2, rfl⟩ := rgnWrite_ok hw
    simp [hw] at h
    exact ⟨h1, h2, h.symm⟩

/-! ## Blocks -/

theorem readBlock_outOfBounds {s : State} {off : Nat} (h : s.rlen.toNat < off + 4) :
    s.readBlock off = .error (.raised .outOfBounds) := by simp [readBlock, rgnRead_outOfBounds h]

theorem readBlock_inBounds {s : State} {off : Nat} (hr : s.regionOk) (h : off + 4 ≤ s.rlen.toNat) :
    s.readBlock off = .ok (Block.ofNat (s.memRead (s.rbase.toNat + off) 4)) := by
  simp [readBlock, rgnRead_inBounds hr h]

/-- A run inside the region is read block by block (43_nack_run R141). -/
theorem readBlocks_inBounds {s : State} {off k : Nat} (hr : s.regionOk) (h : off + 4 * k ≤ s.rlen.toNat) :
    s.readBlocks off k =
      .ok ((List.range k).map fun j => Block.ofNat (s.memRead (s.rbase.toNat + (off + 4 * j)) 4)) := by
  induction k generalizing off with
  | zero => rfl
  | succ k ih =>
    rw [readBlocks, readBlock_inBounds hr (by omega), ih (by omega), List.range_succ_eq_map]
    have hj : ∀ j, off + 4 + 4 * j = off + 4 * (j + 1) := fun j => by omega
    simp [Function.comp_def, hj]

end State

/-- A block is its 32-bit value (42_nack_block R130). -/
@[simp] theorem Block.ofNat_toNat (b : Block) : Block.ofNat b.toNat = b := by
  obtain ⟨p, m⟩ := b
  have hm := m.isLt
  have h1 : (p.toNat * 65536 + m.toNat) / 65536 = p.toNat := by omega
  simp only [Block.ofNat, Block.toNat, h1, BitVec.ofNat_toNat, BitVec.setWidth_eq, Block.mk.injEq, true_and]
  apply BitVec.eq_of_toNat_eq
  rw [BitVec.toNat_ofNat]
  omega

theorem Block.toNat_lt (b : Block) : b.toNat < 256 ^ 4 := by
  have hp := b.pid.isLt
  have hm := b.blp.isLt
  unfold Block.toNat
  omega

end Sys2Proof.Machine
end

