-- ==== Sys2Proof/Laws/Step.lean ====
section
/-! SUPPORT. Everything a step can do (00_scope R5, R6). -/

namespace Sys2Proof.Machine

theorem step_idle {s : State} (h : s.inputs = []) : step s = .next s := by simp [step, h]

theorem step_reset {s : State} {rest : List PortEvent} (h : s.inputs = .reset :: rest) :
    step s = .next s.popEvent.applyReset := by simp [step, h]

theorem step_command {s : State} {w : CmdWord} {rest : List PortEvent} (h : s.inputs = .command w :: rest) :
    step s = execWord w s.popEvent := by simp [step, h]

/-- A step that answers a next state idled, reset, ran the command its word spells, or rejected the word. -/
theorem step_cases {s t : State} (h : step s = .next t) :
    (s.inputs = [] ∧ t = s) ∨
    (∃ rest, s.inputs = .reset :: rest ∧ t = s.popEvent.applyReset) ∨
    (∃ w rest i, s.inputs = .command w :: rest ∧ decode w = .ok i ∧ exec i s.popEvent = .next t) ∨
    (∃ w rest e, s.inputs = .command w :: rest ∧ decode w = .error e ∧
      t = s.popEvent.raise .illegalCommand) := by
  rcases hi : s.inputs with _ | ⟨_ | _, rest⟩
  · rw [step_idle hi] at h
    exact .inl ⟨rfl, by simpa using h.symm⟩
  · rename_i w
    rw [step_command hi, execWord] at h
    rcases hd : decode w with e | i
    · rw [hd] at h
      exact .inr (.inr (.inr ⟨w, rest, e, rfl, hd, by simpa [execIllegal] using h.symm⟩))
    · rw [hd] at h
      exact .inr (.inr (.inl ⟨w, rest, i, rfl, hd, h⟩))
  · rw [step_reset hi] at h
    exact .inr (.inl ⟨rest, rfl, by simpa using h.symm⟩)

end Sys2Proof.Machine
end

