-- ==== Sys2Proof/Machine/Port.lean ====
section
/-! DEFINITION. A response on the wires of the response port (30_encoding R79). -/

namespace Sys2Proof.Machine

/-- One beat: `STATUS`, `LAST`, `DV`, 26 zero bits, `D1`, `D0`. -/
def beatWord (st : Status) (last dv : Bit) (d : DataPair) : BeatWord :=
  st.code ++ last ++ dv ++ 0#26 ++ d.d1 ++ d.d0

/-- The beats of a response's elements in order, `LAST` on the final one only. -/
def dataBeats : List DataPair → List BeatWord
  | [] => []
  | [d] => [beatWord .ok 1 1 d]
  | d :: e :: rest => beatWord .ok 0 1 d :: dataBeats (e :: rest)

/-- R79: one beat with `DV = 0` when there is no data, else one beat an element. Only an `OK` response has data (R78). -/
def Response.beats (r : Response) : List BeatWord :=
  match r.data with
  | [] => [beatWord r.status 1 0 ⟨0, 0⟩]
  | d :: rest => dataBeats (d :: rest)

end Sys2Proof.Machine
end

