-- ==== Sys2Proof/Machine/Reference.lean ====
section
/-! DEFINITION. The reference encode function `Pack` and the list orders it needs (43_nack_run R144, R150), and the
pseudo-commands (30_encoding R82). No command calls them; statements compare the commands with them. -/

namespace Sys2Proof.Machine

/-- Every element stands to the one before it as `ok` allows. -/
def neighbours (ok : SeqOrder → Bool) : List Word16 → Bool
  | [] => true
  | [_] => true
  | a :: b :: rest => ok (seqOrder a b) && neighbours ok (b :: rest)

/-- R144: every element follows the one before it. -/
def ascending (l : List Word16) : Bool := neighbours (fun o => o == .follows) l

/-- R144: every element follows or repeats the one before it. -/
def nonDescending (l : List Word16) : Bool := neighbours (fun o => o != .outOfOrder) l

/-- The loops of R150 with a block open: extend it, skip a repeat of its base, or emit it and open the next. -/
def packFrom (b : Block) : List Word16 → List Block
  | [] => [b]
  | s :: rest =>
    if (seqSub s b.pid).toNat = 0 then packFrom b rest
    else if (seqSub s b.pid).toNat ≤ 16 then
      packFrom ⟨b.pid, b.blp ||| offsetBit (seqSub s b.pid).toNat⟩ rest
    else b :: packFrom ⟨s, 0⟩ rest

/-- R150 without its order check. -/
def packAll : List Word16 → List Block
  | [] => []
  | s :: rest => packFrom ⟨s, 0⟩ rest

/-- `Pack` (R150); none is `fail InvalidOrderError`. -/
def pack (l : List Word16) : Option (List Block) :=
  if nonDescending l then some (packAll l) else none

/-- Runs of equal neighbours reduced to one element (43_nack_run R153 (b)). -/
def dropRepeats : List Word16 → List Word16
  | [] => []
  | [a] => [a]
  | a :: b :: rest => if a = b then dropRepeats (b :: rest) else a :: dropRepeats (b :: rest)

/-- The pseudo-command `CUR.REWIND` (30_encoding R82). -/
def curRewind : Instr := .curSeek 0 0

/-- The pseudo-command `NR.ENCODE off, l` (30_encoding R82). -/
def nrEncode (off : Word16) (l : List Word16) : List Instr :=
  .nrStart off :: (l.map Instr.nrPush ++ [.nrFlush])

end Sys2Proof.Machine
end

