-- ==== Sys2Proof/Safety.lean ====
section
/-! DEFINITION. What counts as a safe run, in the terms claims use (00_scope R6, R7). -/

namespace Sys2Proof.Machine

/-- The machine answers a next state. -/
def Completes (o : Host.Outcome State Fault Refusal) : Prop := ∃ t, o = .next t

/-- R7: a run has gone wrong exactly when `ESR` is not zero at its end. -/
def State.goneWrong (s : State) : Prop := s.esr ≠ 0

/-- The commands one after another, each as one step, with no other event between (00_scope R6). -/
def runCommands : List Instr → State → Host.Outcome State Fault Refusal
  | [], s => .next s
  | i :: is, s =>
    match exec i s with
    | .next t => runCommands is t
    | .fault f => .fault f
    | .refused r => .refused r

/-- A state in which a step may safely be taken: the invariants hold, so the step completes. -/
def Safe (s : State) : Prop := s.Inv

end Sys2Proof.Machine
end

