-- ==== Sys2Proof/Certificates/Slice0/Obligations.lean ====
section
/-! DEFINITION. The statements about the model. What a command leaves unchanged is said by an equation between whole
states: every field a statement does not name is as before. Bytes of `M` are compared through `State.byteAt`. -/

open Sys2Proof Sys2Proof.Machine

/-! ## Encoding -/

/-- 95_test_vectors V30: words written out there, one of every command, and words whose reserved bits are not 0. -/
def Obligations.SpecWordsDecode : Prop :=
  decode 0x01000010000C0000#64 = .ok (.rgnSet 16 12) ∧
  decode 0x0206000100000000#64 = .ok (.curSeek 1 6) ∧
  decode 0x030A000000000000#64 = .ok (.regRd 10) ∧
  decode 0x0400000300000000#64 = .ok (.memRdb 3) ∧
  decode 0x05000003000000AB#64 = .ok (.memWrb 3 0xAB) ∧
  decode 0x1005000000000000#64 = .ok (.bitRd 5) ∧
  decode 0x1100000000000000#64 = .ok .bitRdb ∧
  decode 0x120500000000000F#64 = .ok (.bitWr 5 0x0F) ∧
  decode 0x2000000400000000#64 = .ok (.nbDec 4) ∧
  decode 0x21000004000AD555#64 = .ok (.nbEnc 4 10 0xD555) ∧
  decode 0x3000000000100000#64 = .ok (.nrDec 0 16) ∧
  decode 0x3100000400000000#64 = .ok (.nrStart 4) ∧
  decode 0x32000000FFFE0000#64 = .ok (.nrPush 65534) ∧
  decode 0x3300000000000000#64 = .ok .nrFlush ∧
  decode 0x02FE000100000000#64 = .ok (.curSeek 1 6) ∧
  decode 0x120300000000FFFD#64 = .ok (.bitWr 3 0xFD) ∧
  decode 0x05000003FFFF12AB#64 = .ok (.memWrb 3 0xAB) ∧
  decode 0x32AB123400070000#64 = .ok (.nrPush 7) ∧
  decode 0x0000000000000000#64 = .error (.undefinedOpcode 0x00) ∧
  decode 0xFFFFFFFFFFFFFFFF#64 = .error (.undefinedOpcode 0xFF)

/-- Decode and encode agree on every command, with every operand at every value its field holds. -/
def Obligations.DecodeOfEncode : Prop := ∀ i : Instr, decode (encode i) = .ok i

/-- The other direction: a word whose reserved bits are 0 is the word its command is encoded to. -/
def Obligations.EncodeOfDecode : Prop :=
  ∀ (w : CmdWord) (i : Instr), decode w = .ok i → canonicalWord w = true → encode i = w

/-- R77: the bits a command's format does not read have no effect, and an assembler writes zeros there. -/
def Obligations.ReservedBitsIgnored : Prop :=
  (∀ (w w' : CmdWord) (m : Mnemonic), lookupOpcode (fieldOP w) = some m →
    w &&& (0xFF00000000000000#64 ||| m.format.mask) = w' &&& (0xFF00000000000000#64 ||| m.format.mask) →
    decode w = decode w') ∧
  ∀ i : Instr, encode i &&& ~~~ (0xFF00000000000000#64 ||| i.mnemonic.format.mask) = 0

/-- R76: the words that spell no command are those of an unassigned `OP`; running one, or a `REG.RD` of an index above 10
(which does spell `REG.RD`), raises `IllegalCommand` and changes nothing but `ESR.ILL`. -/
def Obligations.IllegalWordRaises : Prop :=
  (∀ w : CmdWord,
    w.extractLsb' 56 8 ∉ [0x01#8, 0x02, 0x03, 0x04, 0x05, 0x10, 0x11, 0x12, 0x20, 0x21, 0x30, 0x31, 0x32, 0x33] ↔
      decode w = .error (.undefinedOpcode (w.extractLsb' 56 8))) ∧
  ∀ (s : State) (w : CmdWord) (rest : List PortEvent), s.inputs = .command w :: rest →
    (w.extractLsb' 56 8 ∉ [0x01#8, 0x02, 0x03, 0x04, 0x05, 0x10, 0x11, 0x12, 0x20, 0x21, 0x30, 0x31, 0x32, 0x33] ∨
      w.extractLsb' 56 8 = 0x03#8 ∧ 10 < (w.extractLsb' 48 8).toNat) →
    step s = .next { s with
      inputs := rest, esr := s.esr ||| 8#4, rsps := s.rsps ++ [⟨.illegalCommand, []⟩] }

/-- 30_encoding section 6: a line assembles exactly when it has the operands of its row and each fits its field, and what it
assembles to has that mnemonic and those operands. -/
def Obligations.AssembleExactlyWhenOperandsFit : Prop :=
  ∀ l : AsmLine,
    ((∃ i, l.assemble = some i) ↔
      l.operands.length = l.mnemonic.operandLimits.length ∧
        ∀ (k : Nat) (v lim : Nat), l.operands[k]? = some v → l.mnemonic.operandLimits[k]? = some lim → v < lim) ∧
    ∀ i, l.assemble = some i → i.mnemonic = l.mnemonic ∧ i.operands = l.operands

/-! ## The step -/

/-- A step runs the decoded command on the state with that one event taken from the port. -/
def Obligations.StepRunsDecodedCommand : Prop :=
  ∀ (s : State) (w : CmdWord) (rest : List PortEvent) (i : Instr),
    s.inputs = .command w :: rest → decode w = .ok i → step s = exec i { s with inputs := rest }

/-- 70_reset section 1 and 60_exceptions section 3, on the model's list of port events (assumptions 3 to 5): `rst` takes
only itself from the list, every register is 0, no byte of `M` is specified; and with nothing pending the block holds its
state (section 4). -/
def Obligations.ResetEventAndIdle : Prop :=
  (∀ (s : State) (rest : List PortEvent), s.inputs = .reset :: rest →
    ∃ t, step s = .next t ∧
      t = { State.reset with memBytes := s.memBytes, resets := s.resets + 1, inputs := rest } ∧
      ∀ a, t.byteAt a = Config.freeByte (s.resets + 1) a) ∧
  ∀ s : State, s.inputs = [] → step s = .next s

/-- 10_state section 7, the reset values: every register is 0 after reset, no byte of `M` is specified, and the invariants
hold. How the model says it is its own choice: the empty listing and the free bytes are assumptions 2 and 3, and `State.Inv`
speaks also of the carrier of `MEM_BYTES` (assumption 1), of the listing (assumption 2) and of the recorded responses
(assumption 5). -/
def Obligations.ResetState : Prop :=
  State.reset.rbase = 0 ∧ State.reset.rlen = 0 ∧ State.reset.byteIdx = 0 ∧ State.reset.bitIdx = 0 ∧
  State.reset.eValid = 0 ∧ State.reset.ePid = 0 ∧ State.reset.eBlp = 0 ∧ State.reset.eLast = 0 ∧
  State.reset.woff = 0 ∧ State.reset.blkcnt = 0 ∧ State.reset.esr = 0 ∧ State.reset.mem = [] ∧
  (∀ a, State.reset.byteAt a = Config.freeByte 0 a) ∧ State.reset.Inv

/-! ## Invariants and rules over all commands -/

/-- 10_state section 7 (R32 is the spec's own derivation): every step keeps the invariants, from every state that meets
them. -/
def Obligations.StepKeepsInvariants : Prop :=
  ∀ s t : State, s.Inv → step s = .next t → t.Inv

/-- 00_scope section 4: a step is total. The model's own fault never happens where the invariants hold. -/
def Obligations.StepNeverStops : Prop :=
  ∀ s : State, s.Inv → ∃ t, step s = .next t

/-- 10_state sections 5 and 7: what the invariants say of the registers: I1, the bit position, I5, and the ranges of the
open block. -/
def Obligations.InvariantsBoundRegisters : Prop :=
  ∀ s : State, s.Inv →
    s.rbase.toNat + s.rlen.toNat ≤ s.memBytes ∧
    8 * s.byteIdx.toNat + s.bitIdx.toNat ≤ 8 * s.rlen.toNat ∧
    s.blkcnt.toNat ≤ 16383 ∧
    (s.eValid = 1 → (s.eLast - s.ePid).toNat ≤ 16 ∧
      ∀ i, i < 16 → s.eBlp.getLsbD i = true → i + 1 ≤ (s.eLast - s.ePid).toNat)

/-- R173: a command, whatever word spells it and an illegal one too, that ends with a status other than `OK` returns no data
and changes nothing but its `ESR` bit. -/
def Obligations.FailureChangesOnlyEsr : Prop :=
  ∀ (w : CmdWord) (s t : State) (r : Response), execWord w s = .next t → t.rsps = s.rsps ++ [r] → r.status ≠ .ok →
    r.data = [] ∧
    t = { s with
      rsps := s.rsps ++ [r]
      esr := s.esr ||| (match r.status with
        | .ok => 0#4
        | .boundaryError => 1#4
        | .outOfBounds => 2#4
        | .invalidOrderError => 4#4
        | .illegalCommand => 8#4) }

/-- R78: every command word gets one response, and its data has the shape listed for the command; a block's data comes with
the block stored, and only with it. -/
def Obligations.ResponseShapes : Prop :=
  ∀ (w : CmdWord) (s t : State), execWord w s = .next t →
    ∃ r : Response, t.rsps = s.rsps ++ [r] ∧
      (r.status ≠ .ok → r.data = []) ∧
      (r.status = .ok → ∃ i, decode w = .ok i ∧
        match i with
        | .rgnSet _ _ | .curSeek _ _ | .memWrb _ _ | .bitWr _ _ | .nbEnc _ _ _ | .nrStart _ => r.data = []
        | .regRd _ | .memRdb _ | .bitRd _ | .bitRdb => ∃ v, r.data = [⟨0, v⟩]
        | .nbDec _ => ∃ p m, r.data = [⟨p, m⟩]
        | .nrPush _ | .nrFlush =>
          (r.data = [] ∧ t.blkcnt = s.blkcnt ∧ t.mem = s.mem) ∨
          (r.data = [⟨s.ePid, s.eBlp⟩] ∧ t.blkcnt = s.blkcnt + 1)
        | .nrDec off len =>
          r.data = (expand ((List.range (len.toNat / 4)).map fun k =>
            let a := s.rbase.toNat + off.toNat + 4 * k
            ⟨s.byteAt a ++ s.byteAt (a + 1), s.byteAt (a + 2) ++ s.byteAt (a + 3)⟩)).map fun v => ⟨0, v⟩)

/-- 60_exceptions section 1 (R184 is the spec's own derivation): the blank cells of the table of statuses. -/
def Obligations.StatusesCommandsCanReturn : Prop :=
  ∀ (i : Instr) (s t : State) (r : Response), exec i s = .next t → t.rsps = s.rsps ++ [r] →
    r.status ∈ (match i with
      | .regRd _ => [Status.ok, .illegalCommand]
      | .bitRd _ | .bitWr _ _ => [.ok, .boundaryError, .outOfBounds]
      | .nrStart _ => [.ok]
      | .nrPush _ => [.ok, .outOfBounds, .invalidOrderError]
      | .rgnSet _ _ | .curSeek _ _ | .memRdb _ | .memWrb _ _ | .bitRdb | .nbDec _ | .nbEnc _ _ _ | .nrDec _ _
      | .nrFlush => [.ok, .outOfBounds])

/-- 10_state section 7, the column "written by" of the register map: a register changes only by the commands listed for
it, and `MEM_BYTES` by none. -/
def Obligations.RegisterWriters : Prop :=
  ∀ (i : Instr) (s t : State), exec i s = .next t →
    t.memBytes = s.memBytes ∧ t.resets = s.resets ∧ t.inputs = s.inputs ∧
    (i.mnemonic ∉ [.rgnSet] → t.rbase = s.rbase ∧ t.rlen = s.rlen) ∧
    (i.mnemonic ∉ [.rgnSet, .curSeek, .bitRd, .bitRdb, .bitWr] → t.byteIdx = s.byteIdx ∧ t.bitIdx = s.bitIdx) ∧
    (i.mnemonic ∉ [.nrStart, .nrPush, .nrFlush] →
      t.eValid = s.eValid ∧ t.woff = s.woff ∧ t.blkcnt = s.blkcnt) ∧
    (i.mnemonic ∉ [.nrStart, .nrPush] → t.ePid = s.ePid ∧ t.eBlp = s.eBlp ∧ t.eLast = s.eLast) ∧
    (i.mnemonic ∉ [.memWrb, .bitWr, .nbEnc, .nrPush, .nrFlush] → ∀ a, t.byteAt a = s.byteAt a)

/-- R31: which bit each status sets, that no command clears one, that `REG.RD` reads them, that no command but that read
depends on them, and that reset clears all. -/
def Obligations.EsrIsStickyAndInert : Prop :=
  (∀ (w : CmdWord) (s t : State) (r : Response), execWord w s = .next t → t.rsps = s.rsps ++ [r] →
    t.esr = s.esr ||| (match r.status with
      | .ok => 0#4
      | .boundaryError => 1#4
      | .outOfBounds => 2#4
      | .invalidOrderError => 4#4
      | .illegalCommand => 8#4)) ∧
  (∀ s : State, exec (.regRd 4) s = .next { s with
    rsps := s.rsps ++ [⟨.ok, [⟨0, BitVec.ofNat 16 s.esr.toNat⟩]⟩] }) ∧
  (∀ (w : CmdWord) (s t : State) (v : BitVec 4), decode w ≠ .ok (.regRd 4) → execWord w s = .next t →
    ∃ u, execWord w { s with esr := v } = .next u ∧ { u with esr := t.esr } = t) ∧
  (∀ (s : State) (rest : List PortEvent), s.inputs = .reset :: rest → ∃ t, step s = .next t ∧ t.esr = 0) ∧
  State.reset.esr = 0

/-- 00_scope section 4: a run has gone wrong, `ESR` not 0, exactly when some response of it was not `OK`. -/
def Obligations.EsrZeroExactlyWhenAllOk : Prop :=
  ∀ s : State, s.Inv → (s.esr = 0 ↔ ∀ r ∈ s.rsps, r.status = .ok)

/-- 20_memory section 4: no command changes a byte outside the region that was current when it began. -/
def Obligations.BytesOutsideRegionKept : Prop :=
  ∀ (i : Instr) (s t : State) (a : Nat), exec i s = .next t →
    (a < s.rbase.toNat ∨ s.rbase.toNat + s.rlen.toNat ≤ a) → t.byteAt a = s.byteAt a

/-- 20_memory section 4: no command learns a byte outside the region: two states that agree but for those bytes give the
same registers, the same response and the same bytes of the region. -/
def Obligations.BytesOutsideRegionUnseen : Prop :=
  ∀ (i : Instr) (s t : State) (m : Memory), exec i s = .next t →
    (∀ a, s.rbase.toNat ≤ a → a < s.rbase.toNat + s.rlen.toNat → State.byteAt { s with mem := m } a = s.byteAt a) →
    ∃ u, exec i { s with mem := m } = .next u ∧ { u with mem := t.mem } = t ∧
      ∀ a, s.rbase.toNat ≤ a → a < s.rbase.toNat + s.rlen.toNat → u.byteAt a = t.byteAt a

/-- 70_reset section 1 (R193 is the spec's own derivation): with an empty region, as after reset, every command that would
touch `M` fails, whichever it is and whatever it was given, the refused stores of the encoder among them; and no command reads
or writes a byte: with any other memory it does the same. `NR.DEC 0, 0` decodes no block, so it succeeds. -/
def Obligations.EmptyRegionReachesNoByte : Prop :=
  ∀ s : State, s.rlen = 0 →
    (∀ i : Instr, i.mnemonic ∈ [.memRdb, .memWrb, .bitRdb, .nbDec, .nbEnc] →
      exec i s = .next { s with esr := s.esr ||| 2#4, rsps := s.rsps ++ [⟨.outOfBounds, []⟩] }) ∧
    (∀ off len : Word16, 0 < off.toNat + len.toNat →
      exec (.nrDec off len) s = .next { s with esr := s.esr ||| 2#4, rsps := s.rsps ++ [⟨.outOfBounds, []⟩] }) ∧
    exec (.nrDec 0 0) s = .next { s with rsps := s.rsps ++ [⟨.ok, []⟩] } ∧
    (∀ (n : BitVec 8) (i : Instr) (v : Byte), i = .bitRd n ∨ i = .bitWr n v →
      ∃ t r, exec i s = .next t ∧ t.rsps = s.rsps ++ [r] ∧ r.status ≠ .ok) ∧
    (s.eValid = 0 → exec .nrFlush s = .next { s with rsps := s.rsps ++ [⟨.ok, []⟩] }) ∧
    (s.eValid = 1 →
      exec .nrFlush s = .next { s with esr := s.esr ||| 2#4, rsps := s.rsps ++ [⟨.outOfBounds, []⟩] }) ∧
    (∀ sn : Word16, s.eValid = 1 → 1 ≤ (sn - s.eLast).toNat → (sn - s.eLast).toNat ≤ 0x7FFF →
      16 < (sn - s.ePid).toNat →
      exec (.nrPush sn) s = .next { s with esr := s.esr ||| 2#4, rsps := s.rsps ++ [⟨.outOfBounds, []⟩] }) ∧
    (∀ (i : Instr) (t : State), exec i s = .next t → ∀ a, t.byteAt a = s.byteAt a) ∧
    ∀ (i : Instr) (t : State) (m : Memory), exec i s = .next t → exec i { s with mem := m } = .next { t with mem := m }

/-! ## Region and management commands -/

/-- R90. -/
def Obligations.RgnSetResult : Prop :=
  (∀ w : CmdWord, w.extractLsb' 56 8 = 0x01#8 →
    decode w = .ok (.rgnSet (w.extractLsb' 32 16) (w.extractLsb' 16 16))) ∧
  ∀ (s : State) (base len : Word16),
    (base.toNat + len.toNat ≤ s.memBytes →
      exec (.rgnSet base len) s = .next { s with
        rbase := base, rlen := len, byteIdx := 0, bitIdx := 0, rsps := s.rsps ++ [⟨.ok, []⟩] }) ∧
    (s.memBytes < base.toNat + len.toNat →
      exec (.rgnSet base len) s = .next { s with
        esr := s.esr ||| 2#4, rsps := s.rsps ++ [⟨.outOfBounds, []⟩] })

/-- R91. -/
def Obligations.CurSeekResult : Prop :=
  (∀ w : CmdWord, w.extractLsb' 56 8 = 0x02#8 →
    decode w = .ok (.curSeek (w.extractLsb' 32 16) (w.extractLsb' 48 3))) ∧
  ∀ (s : State) (byte : Word16) (bit : BitVec 3),
    (8 * byte.toNat + bit.toNat ≤ 8 * s.rlen.toNat →
      exec (.curSeek byte bit) s = .next { s with
        byteIdx := byte, bitIdx := bit, rsps := s.rsps ++ [⟨.ok, []⟩] }) ∧
    (8 * s.rlen.toNat < 8 * byte.toNat + bit.toNat →
      exec (.curSeek byte bit) s = .next { s with
        esr := s.esr ||| 2#4, rsps := s.rsps ++ [⟨.outOfBounds, []⟩] })

/-- R93, with the indices of R33. -/
def Obligations.RegRdResult : Prop :=
  (∀ w : CmdWord, w.extractLsb' 56 8 = 0x03#8 → decode w = .ok (.regRd (w.extractLsb' 48 8))) ∧
  ∀ s : State,
    (∀ (idx : BitVec 8) (v : Word16),
      (idx = 0 ∧ v = s.rbase) ∨ (idx = 1 ∧ v = s.rlen) ∨ (idx = 2 ∧ v = s.byteIdx) ∨
      (idx = 3 ∧ v = BitVec.ofNat 16 s.bitIdx.toNat) ∨ (idx = 4 ∧ v = BitVec.ofNat 16 s.esr.toNat) ∨
      (idx = 5 ∧ v = BitVec.ofNat 16 s.eValid.toNat) ∨ (idx = 6 ∧ v = s.ePid) ∨ (idx = 7 ∧ v = s.eBlp) ∨
      (idx = 8 ∧ v = s.eLast) ∨ (idx = 9 ∧ v = s.woff) ∨ (idx = 10 ∧ v = s.blkcnt) →
      exec (.regRd idx) s = .next { s with rsps := s.rsps ++ [⟨.ok, [⟨0, v⟩]⟩] }) ∧
    ∀ idx : BitVec 8, 10 < idx.toNat →
      exec (.regRd idx) s = .next { s with
        esr := s.esr ||| 8#4, rsps := s.rsps ++ [⟨.illegalCommand, []⟩] }

/-- R94. -/
def Obligations.MemRdbResult : Prop :=
  (∀ w : CmdWord, w.extractLsb' 56 8 = 0x04#8 → decode w = .ok (.memRdb (w.extractLsb' 32 16))) ∧
  ∀ (s : State) (off : Word16), s.regionOk →
    (off.toNat < s.rlen.toNat →
      exec (.memRdb off) s = .next { s with
        rsps := s.rsps ++ [⟨.ok, [⟨0, (s.byteAt (s.rbase.toNat + off.toNat)).zeroExtend 16⟩]⟩] }) ∧
    (s.rlen.toNat ≤ off.toNat →
      exec (.memRdb off) s = .next { s with
        esr := s.esr ||| 2#4, rsps := s.rsps ++ [⟨.outOfBounds, []⟩] })

/-- R95. -/
def Obligations.MemWrbResult : Prop :=
  (∀ w : CmdWord, w.extractLsb' 56 8 = 0x05#8 →
    decode w = .ok (.memWrb (w.extractLsb' 32 16) (w.extractLsb' 0 8))) ∧
  ∀ (s : State) (off : Word16) (val : Byte), s.regionOk →
    (off.toNat < s.rlen.toNat →
      ∃ t, exec (.memWrb off val) s = .next t ∧
        t = { s with mem := t.mem, rsps := s.rsps ++ [⟨.ok, []⟩] } ∧
        ∀ a, t.byteAt a = if a = s.rbase.toNat + off.toNat then val else s.byteAt a) ∧
    (s.rlen.toNat ≤ off.toNat →
      exec (.memWrb off val) s = .next { s with
        esr := s.esr ||| 2#4, rsps := s.rsps ++ [⟨.outOfBounds, []⟩] })

/-! ## Bit cursor commands -/

/-- R111, with the admission test of R110, the bit order of R52 and the advance of R114. -/
def Obligations.BitRdResult : Prop :=
  (∀ w : CmdWord, w.extractLsb' 56 8 = 0x10#8 → decode w = .ok (.bitRd (w.extractLsb' 48 8))) ∧
  ∀ (s : State) (n : BitVec 8), s.regionOk →
    (n.toNat = 0 ∨ 8 < n.toNat ∨ 8 < s.bitIdx.toNat + n.toNat →
      exec (.bitRd n) s = .next { s with
        esr := s.esr ||| 1#4, rsps := s.rsps ++ [⟨.boundaryError, []⟩] }) ∧
    (1 ≤ n.toNat → s.bitIdx.toNat + n.toNat ≤ 8 → s.rlen.toNat ≤ s.byteIdx.toNat →
      exec (.bitRd n) s = .next { s with
        esr := s.esr ||| 2#4, rsps := s.rsps ++ [⟨.outOfBounds, []⟩] }) ∧
    (1 ≤ n.toNat → s.bitIdx.toNat + n.toNat ≤ 8 → s.byteIdx.toNat < s.rlen.toNat →
      exec (.bitRd n) s = .next { s with
        byteIdx := if s.bitIdx.toNat + n.toNat = 8 then s.byteIdx + 1 else s.byteIdx
        bitIdx := if s.bitIdx.toNat + n.toNat = 8 then 0 else BitVec.ofNat 3 (s.bitIdx.toNat + n.toNat)
        rsps := s.rsps ++ [⟨.ok, [⟨0, BitVec.ofNat 16
          ((s.byteAt (s.rbase.toNat + s.byteIdx.toNat)).toNat / 2 ^ (8 - s.bitIdx.toNat - n.toNat) %
            2 ^ n.toNat)⟩]⟩] })

/-- R112: the result, and that it is `BIT.RD 1` in every state. -/
def Obligations.BitRdbResult : Prop :=
  (∀ w : CmdWord, w.extractLsb' 56 8 = 0x11#8 → decode w = .ok .bitRdb) ∧
  (∀ s : State, exec .bitRdb s = exec (.bitRd 1) s) ∧
  ∀ s : State, s.regionOk →
    (s.rlen.toNat ≤ s.byteIdx.toNat →
      exec .bitRdb s = .next { s with
        esr := s.esr ||| 2#4, rsps := s.rsps ++ [⟨.outOfBounds, []⟩] }) ∧
    (s.byteIdx.toNat < s.rlen.toNat →
      exec .bitRdb s = .next { s with
        byteIdx := if s.bitIdx.toNat = 7 then s.byteIdx + 1 else s.byteIdx
        bitIdx := s.bitIdx + 1
        rsps := s.rsps ++ [⟨.ok,
          [⟨0, if (s.byteAt (s.rbase.toNat + s.byteIdx.toNat)).getLsbD (7 - s.bitIdx.toNat) then 1 else 0⟩]⟩] })

/-- R113: the span takes the low bits of `val`, the byte's other bits and all other bytes keep their values. -/
def Obligations.BitWrResult : Prop :=
  (∀ w : CmdWord, w.extractLsb' 56 8 = 0x12#8 →
    decode w = .ok (.bitWr (w.extractLsb' 48 8) (w.extractLsb' 0 8))) ∧
  ∀ (s : State) (n : BitVec 8) (val : Byte), s.regionOk →
    (n.toNat = 0 ∨ 8 < n.toNat ∨ 8 < s.bitIdx.toNat + n.toNat →
      exec (.bitWr n val) s = .next { s with
        esr := s.esr ||| 1#4, rsps := s.rsps ++ [⟨.boundaryError, []⟩] }) ∧
    (1 ≤ n.toNat → s.bitIdx.toNat + n.toNat ≤ 8 → s.rlen.toNat ≤ s.byteIdx.toNat →
      exec (.bitWr n val) s = .next { s with
        esr := s.esr ||| 2#4, rsps := s.rsps ++ [⟨.outOfBounds, []⟩] }) ∧
    (1 ≤ n.toNat → s.bitIdx.toNat + n.toNat ≤ 8 → s.byteIdx.toNat < s.rlen.toNat →
      ∃ t, exec (.bitWr n val) s = .next t ∧
        t = { s with
          mem := t.mem
          byteIdx := if s.bitIdx.toNat + n.toNat = 8 then s.byteIdx + 1 else s.byteIdx
          bitIdx := if s.bitIdx.toNat + n.toNat = 8 then 0 else BitVec.ofNat 3 (s.bitIdx.toNat + n.toNat)
          rsps := s.rsps ++ [⟨.ok, []⟩] } ∧
        (∀ a, a ≠ s.rbase.toNat + s.byteIdx.toNat → t.byteAt a = s.byteAt a) ∧
        ∀ j, j < 8 → (t.byteAt (s.rbase.toNat + s.byteIdx.toNat)).getLsbD j =
          if 8 - s.bitIdx.toNat - n.toNat ≤ j ∧ j < 8 - s.bitIdx.toNat then
            val.getLsbD (j - (8 - s.bitIdx.toNat - n.toNat))
          else (s.byteAt (s.rbase.toNat + s.byteIdx.toNat)).getLsbD j)

/-- 41_bit_cursor, "Laws that follow" (a): writing a field, seeking back and reading it gives the value, less the bits the
field has no room for. -/
def Obligations.ReadBackWrittenField : Prop :=
  ∀ (s : State) (n : BitVec 8) (v : Byte), s.regionOk →
    1 ≤ n.toNat → s.bitIdx.toNat + n.toNat ≤ 8 → s.byteIdx.toNat < s.rlen.toNat →
    ∃ t, runCommands [.bitWr n v, .curSeek s.byteIdx s.bitIdx, .bitRd n] s = .next t ∧
      t.rsps = s.rsps ++ [⟨.ok, []⟩, ⟨.ok, []⟩, ⟨.ok, [⟨0, BitVec.ofNat 16 (v.toNat % 2 ^ n.toNat)⟩]⟩]

/-- 41_bit_cursor, "Laws that follow" (b): writing back what was read leaves every byte as it was. -/
def Obligations.WriteBackReadField : Prop :=
  ∀ (s : State) (n : BitVec 8), s.regionOk →
    1 ≤ n.toNat → s.bitIdx.toNat + n.toNat ≤ 8 → s.byteIdx.toNat < s.rlen.toNat →
    ∃ (v : Byte) (t u : State), exec (.bitRd n) s = .next t ∧
      t.rsps = s.rsps ++ [⟨.ok, [⟨0, v.zeroExtend 16⟩]⟩] ∧
      runCommands [.curSeek s.byteIdx s.bitIdx, .bitWr n v] t = .next u ∧
      ∀ a, u.byteAt a = s.byteAt a

/-- 41_bit_cursor, "Laws that follow" (d): a byte read as successive fields is those fields joined, the first the most
significant. -/
def Obligations.FieldsJoinToByte : Prop :=
  ∀ (s : State) (ns : List (BitVec 8)), s.regionOk → s.bitIdx = 0 → s.byteIdx.toNat < s.rlen.toNat →
    (∀ n ∈ ns, 1 ≤ n.toNat) → (ns.map BitVec.toNat).sum = 8 →
    ∃ (t : State) (vs : List Nat), runCommands (ns.map Instr.bitRd) s = .next t ∧ vs.length = ns.length ∧
      t.rsps = s.rsps ++ vs.map (fun v => ⟨.ok, [⟨0, BitVec.ofNat 16 v⟩]⟩) ∧
      (ns.zip vs).foldl (fun acc p => acc * 2 ^ p.1.toNat + p.2) 0 =
        (s.byteAt (s.rbase.toNat + s.byteIdx.toNat)).toNat ∧
      (∀ p ∈ ns.zip vs, p.2 < 2 ^ p.1.toNat) ∧
      t.byteIdx = s.byteIdx + 1 ∧ t.bitIdx = 0

/-- 41_bit_cursor, "Laws that follow" (e): a read and a write of the same width in the same state end with the same status
and leave the cursor at the same place. -/
def Obligations.ReadAndWriteMoveAlike : Prop :=
  ∀ (s t u : State) (n : BitVec 8) (v : Byte), exec (.bitRd n) s = .next t → exec (.bitWr n v) s = .next u →
    t.byteIdx = u.byteIdx ∧ t.bitIdx = u.bitIdx ∧ t.esr = u.esr ∧
    t.rsps.map Response.status = u.rsps.map Response.status

/-! ## Generic NACK block commands -/

/-- R131: packetId from the first two bytes, bitmask from the last two, the higher byte first. -/
def Obligations.NbDecResult : Prop :=
  (∀ w : CmdWord, w.extractLsb' 56 8 = 0x20#8 → decode w = .ok (.nbDec (w.extractLsb' 32 16))) ∧
  ∀ (s : State) (off : Word16), s.regionOk →
    (off.toNat + 4 ≤ s.rlen.toNat →
      exec (.nbDec off) s = .next { s with
        rsps := s.rsps ++ [⟨.ok, [⟨s.byteAt (s.rbase.toNat + off.toNat) ++ s.byteAt (s.rbase.toNat + off.toNat + 1),
          s.byteAt (s.rbase.toNat + off.toNat + 2) ++ s.byteAt (s.rbase.toNat + off.toNat + 3)⟩]⟩] }) ∧
    (s.rlen.toNat < off.toNat + 4 →
      exec (.nbDec off) s = .next { s with
        esr := s.esr ||| 2#4, rsps := s.rsps ++ [⟨.outOfBounds, []⟩] })

/-- R132: the four bytes, the higher byte of each half first; no other byte. -/
def Obligations.NbEncResult : Prop :=
  (∀ w : CmdWord, w.extractLsb' 56 8 = 0x21#8 →
    decode w = .ok (.nbEnc (w.extractLsb' 32 16) (w.extractLsb' 16 16) (w.extractLsb' 0 16))) ∧
  ∀ (s : State) (off pid blp : Word16), s.regionOk →
    (off.toNat + 4 ≤ s.rlen.toNat →
      ∃ t, exec (.nbEnc off pid blp) s = .next t ∧
        t = { s with mem := t.mem, rsps := s.rsps ++ [⟨.ok, []⟩] } ∧
        ∀ a, t.byteAt a =
          if a = s.rbase.toNat + off.toNat then pid.extractLsb' 8 8
          else if a = s.rbase.toNat + off.toNat + 1 then pid.extractLsb' 0 8
          else if a = s.rbase.toNat + off.toNat + 2 then blp.extractLsb' 8 8
          else if a = s.rbase.toNat + off.toNat + 3 then blp.extractLsb' 0 8
          else s.byteAt a) ∧
    (s.rlen.toNat < off.toNat + 4 →
      exec (.nbEnc off pid blp) s = .next { s with
        esr := s.esr ||| 2#4, rsps := s.rsps ++ [⟨.outOfBounds, []⟩] })

/-- 42_nack_block, "Laws that follow": a block stored is the block loaded, and storing a block back where it was loaded from
leaves every byte as it was. -/
def Obligations.NackBlockRoundTrip : Prop :=
  ∀ (s : State) (off : Word16), s.regionOk → off.toNat + 4 ≤ s.rlen.toNat →
    (∀ pid blp : Word16, ∃ t, runCommands [.nbEnc off pid blp, .nbDec off] s = .next t ∧
      t.rsps = s.rsps ++ [⟨.ok, []⟩, ⟨.ok, [⟨pid, blp⟩]⟩]) ∧
    ∃ (pid blp : Word16) (t u : State), exec (.nbDec off) s = .next t ∧
      t.rsps = s.rsps ++ [⟨.ok, [⟨pid, blp⟩]⟩] ∧
      exec (.nbEnc off pid blp) t = .next u ∧ ∀ a, u.byteAt a = s.byteAt a

/-! ## NACK run commands -/

/-- R140: the base, then `base + i + 1` modulo 2^16 for each set bit `i`, ascending; blocks in order; the length. -/
def Obligations.ExpandResult : Prop :=
  (∀ b : Block, expandBlock b =
    b.pid :: ((List.range 16).filter fun i => b.blp.toNat / 2 ^ i % 2 = 1).map
      (fun i => BitVec.ofNat 16 (b.pid.toNat + (i + 1)))) ∧
  expand [] = [] ∧ (∀ (b : Block) (bs : List Block), expand (b :: bs) = expandBlock b ++ expand bs) ∧
  ∀ b : Block, (expandBlock b).length = 1 + ((List.range 16).filter fun i => b.blp.getLsbD i).length

/-- R141. -/
def Obligations.NrDecResult : Prop :=
  (∀ w : CmdWord, w.extractLsb' 56 8 = 0x30#8 →
    decode w = .ok (.nrDec (w.extractLsb' 32 16) (w.extractLsb' 16 16))) ∧
  ∀ (s : State) (off len : Word16), s.regionOk →
    (len.toNat % 4 = 0 → off.toNat + len.toNat ≤ s.rlen.toNat →
      exec (.nrDec off len) s = .next { s with
        rsps := s.rsps ++ [⟨.ok, (expand ((List.range (len.toNat / 4)).map fun k =>
          let a := s.rbase.toNat + off.toNat + 4 * k
          ⟨s.byteAt a ++ s.byteAt (a + 1), s.byteAt (a + 2) ++ s.byteAt (a + 3)⟩)).map fun v => ⟨0, v⟩⟩] }) ∧
    (len.toNat % 4 ≠ 0 ∨ s.rlen.toNat < off.toNat + len.toNat →
      exec (.nrDec off len) s = .next { s with
        esr := s.esr ||| 2#4, rsps := s.rsps ++ [⟨.outOfBounds, []⟩] })

/-- 43_nack_run section 2: how many sequence numbers a run of `len` bytes gives. -/
def Obligations.NrDecElementCount : Prop :=
  ∀ (s t : State) (off len : Word16) (d : List DataPair), exec (.nrDec off len) s = .next t →
    t.rsps = s.rsps ++ [⟨.ok, d⟩] → len.toNat / 4 ≤ d.length ∧ d.length ≤ 17 * (len.toNat / 4)

/-- R145: always `OK`; the encoder is cleared, nothing else changes. -/
def Obligations.NrStartResult : Prop :=
  (∀ w : CmdWord, w.extractLsb' 56 8 = 0x31#8 → decode w = .ok (.nrStart (w.extractLsb' 32 16))) ∧
  ∀ (s : State) (off : Word16), exec (.nrStart off) s = .next { s with
    eValid := 0, ePid := 0, eBlp := 0, eLast := 0, woff := off, blkcnt := 0, rsps := s.rsps ++ [⟨.ok, []⟩] }

/-- 43_nack_run section 4: `NR.PUSH` (R146), with the order check of R147 and the store of R148. That the offset from the
base is exact is R147's consequence, the spec's own derivation from invariant (a) of R28, and is stated where `encoderOk`
holds. -/
def Obligations.NrPushResult : Prop :=
  (∀ w : CmdWord, w.extractLsb' 56 8 = 0x32#8 → decode w = .ok (.nrPush (w.extractLsb' 16 16))) ∧
  ∀ (s : State) (sn : Word16),
    (s.eValid = 0 →
      exec (.nrPush sn) s = .next { s with
        eValid := 1, ePid := sn, eBlp := 0, eLast := sn, rsps := s.rsps ++ [⟨.ok, []⟩] }) ∧
    (s.eValid = 1 → sn = s.eLast →
      exec (.nrPush sn) s = .next { s with rsps := s.rsps ++ [⟨.ok, []⟩] }) ∧
    (s.eValid = 1 → 0x8000 ≤ (sn - s.eLast).toNat →
      exec (.nrPush sn) s = .next { s with
        esr := s.esr ||| 4#4, rsps := s.rsps ++ [⟨.invalidOrderError, []⟩] }) ∧
    (s.eValid = 1 → 1 ≤ (sn - s.eLast).toNat → (sn - s.eLast).toNat ≤ 0x7FFF → s.encoderOk →
      (sn - s.ePid).toNat = (s.eLast - s.ePid).toNat + (sn - s.eLast).toNat ∧
      ((sn - s.ePid).toNat ≤ 16 →
        exec (.nrPush sn) s = .next { s with
          eBlp := s.eBlp ||| (1#16 <<< ((sn - s.ePid).toNat - 1)), eLast := sn
          rsps := s.rsps ++ [⟨.ok, []⟩] }) ∧
      (16 < (sn - s.ePid).toNat → s.rlen.toNat < s.woff.toNat + 4 →
        exec (.nrPush sn) s = .next { s with
          esr := s.esr ||| 2#4, rsps := s.rsps ++ [⟨.outOfBounds, []⟩] }) ∧
      (16 < (sn - s.ePid).toNat → s.woff.toNat + 4 ≤ s.rlen.toNat → s.regionOk →
        ∃ t, exec (.nrPush sn) s = .next t ∧
          t = { s with
            mem := t.mem, ePid := sn, eBlp := 0, eLast := sn
            woff := BitVec.ofNat 16 (s.woff.toNat + 4), blkcnt := s.blkcnt + 1
            rsps := s.rsps ++ [⟨.ok, [⟨s.ePid, s.eBlp⟩]⟩] } ∧
          ∀ a, t.byteAt a =
            if a = s.rbase.toNat + s.woff.toNat then s.ePid.extractLsb' 8 8
            else if a = s.rbase.toNat + s.woff.toNat + 1 then s.ePid.extractLsb' 0 8
            else if a = s.rbase.toNat + s.woff.toNat + 2 then s.eBlp.extractLsb' 8 8
            else if a = s.rbase.toNat + s.woff.toNat + 3 then s.eBlp.extractLsb' 0 8
            else s.byteAt a))

/-- R149, with the store of R148. -/
def Obligations.NrFlushResult : Prop :=
  (∀ w : CmdWord, w.extractLsb' 56 8 = 0x33#8 → decode w = .ok .nrFlush) ∧
  ∀ s : State,
    (s.eValid = 0 → exec .nrFlush s = .next { s with rsps := s.rsps ++ [⟨.ok, []⟩] }) ∧
    (s.eValid = 1 → s.rlen.toNat < s.woff.toNat + 4 →
      exec .nrFlush s = .next { s with
        esr := s.esr ||| 2#4, rsps := s.rsps ++ [⟨.outOfBounds, []⟩] }) ∧
    (s.eValid = 1 → s.woff.toNat + 4 ≤ s.rlen.toNat → s.regionOk →
      ∃ t, exec .nrFlush s = .next t ∧
        t = { s with
          mem := t.mem, eValid := 0
          woff := BitVec.ofNat 16 (s.woff.toNat + 4), blkcnt := s.blkcnt + 1
          rsps := s.rsps ++ [⟨.ok, [⟨s.ePid, s.eBlp⟩]⟩] } ∧
        ∀ a, t.byteAt a =
          if a = s.rbase.toNat + s.woff.toNat then s.ePid.extractLsb' 8 8
          else if a = s.rbase.toNat + s.woff.toNat + 1 then s.ePid.extractLsb' 0 8
          else if a = s.rbase.toNat + s.woff.toNat + 2 then s.eBlp.extractLsb' 8 8
          else if a = s.rbase.toNat + s.woff.toNat + 3 then s.eBlp.extractLsb' 0 8
          else s.byteAt a)

/-- R144: the classification by `d = b - a` modulo 2^16, and the two list orders, said of neighbours. -/
def Obligations.SequenceOrders : Prop :=
  (∀ a b : Word16,
    (seqOrder a b = .follows ↔
      1 ≤ (b.toNat + 65536 - a.toNat) % 65536 ∧ (b.toNat + 65536 - a.toNat) % 65536 ≤ 0x7FFF) ∧
    (seqOrder a b = .repeats ↔ a = b) ∧
    (seqOrder a b = .outOfOrder ↔ 0x8000 ≤ (b.toNat + 65536 - a.toNat) % 65536)) ∧
  ∀ l : List Word16,
    (ascending l = true ↔
      ∀ (j : Nat) (a b : Word16), l[j]? = some a → l[j + 1]? = some b → seqOrder a b = .follows) ∧
    (nonDescending l = true ↔
      ∀ (j : Nat) (a b : Word16), l[j]? = some a → l[j + 1]? = some b →
        seqOrder a b = .follows ∨ seqOrder a b = .repeats)

/-- R150: `Pack` fails exactly on a list with a number out of order after the one before it; otherwise each block takes the
next number as its base and every number after it up to the first whose offset exceeds 16, whose bits it sets. -/
def Obligations.PackIsGreedy : Prop :=
  (∀ l : List Word16, pack l = none ↔
    ∃ (j : Nat) (a b : Word16), l[j]? = some a ∧ l[j + 1]? = some b ∧ 0x8000 ≤ (b - a).toNat) ∧
  (∀ (l : List Word16) (bs : List Block), pack l = some bs → bs = packAll l) ∧
  packAll [] = [] ∧
  ∀ (s : Word16) (rest : List Word16),
    packAll (s :: rest) =
      ⟨s, (rest.takeWhile fun x => decide ((x - s).toNat ≤ 16)).foldl
        (fun blp x => if x = s then blp else blp ||| (1#16 <<< ((x - s).toNat - 1))) 0⟩ ::
      packAll (rest.dropWhile fun x => decide ((x - s).toNat ≤ 16))

/-- 43_nack_run section 5 (a): `NR.ENCODE` of a list `Pack` accepts, with room for its blocks, sends `OK` throughout, returns
and stores exactly `Pack`'s blocks, and leaves the counters as the spec says. -/
def Obligations.EncodeRunComputesPack : Prop :=
  ∀ (s : State) (off : Word16) (l : List Word16) (bs : List Block), s.regionOk → pack l = some bs →
    off.toNat + 4 * bs.length ≤ s.rlen.toNat →
    ∃ (t : State) (rs : List Response), runCommands (nrEncode off l) s = .next t ∧
      t = { s with
        mem := t.mem, ePid := t.ePid, eBlp := t.eBlp, eLast := t.eLast, eValid := 0
        woff := BitVec.ofNat 16 (off.toNat + 4 * bs.length), blkcnt := BitVec.ofNat 16 bs.length
        rsps := s.rsps ++ rs } ∧
      rs.length = l.length + 2 ∧ (∀ r ∈ rs, r.status = .ok) ∧
      rs.flatMap Response.data = bs.map (fun b => ⟨b.pid, b.blp⟩) ∧
      (∀ (j : Nat) (b : Block), bs[j]? = some b →
        t.byteAt (s.rbase.toNat + off.toNat + 4 * j) ++ t.byteAt (s.rbase.toNat + off.toNat + 4 * j + 1) = b.pid ∧
        t.byteAt (s.rbase.toNat + off.toNat + 4 * j + 2) ++ t.byteAt (s.rbase.toNat + off.toNat + 4 * j + 3) = b.blp) ∧
      ∀ a, a < s.rbase.toNat + off.toNat ∨ s.rbase.toNat + off.toNat + 4 * bs.length ≤ a → t.byteAt a = s.byteAt a

/-- 43_nack_run section 5 (b): the first number out of order is refused, with nothing changed, and there `Pack` fails. -/
def Obligations.EncodeRunStopsAtDisorder : Prop :=
  ∀ (s : State) (off : Word16) (l : List Word16) (a sn : Word16) (bs : List Block), s.regionOk →
    pack (l ++ [a]) = some bs → off.toNat + 4 * bs.length ≤ s.rlen.toNat → seqOrder a sn = .outOfOrder →
    (∃ (t : State) (rs : List Response),
      runCommands (.nrStart off :: (l ++ [a]).map Instr.nrPush) s = .next t ∧
      t.rsps = s.rsps ++ rs ∧ (∀ r ∈ rs, r.status = .ok) ∧
      exec (.nrPush sn) t = .next { t with
        esr := t.esr ||| 4#4, rsps := t.rsps ++ [⟨.invalidOrderError, []⟩] }) ∧
    ∀ rest, pack (l ++ a :: sn :: rest) = none

/-- 43_nack_run section 5 (c): in a region too small, the first command that must store beyond it is refused, with nothing
changed, and the blocks before it are in `M`. -/
def Obligations.EncodeRunStopsAtRegionEnd : Prop :=
  ∀ (s : State) (off : Word16) (l : List Word16) (bs : List Block), s.regionOk → pack l = some bs →
    bs ≠ [] → s.rlen.toNat < off.toNat + 4 * bs.length →
    ∃ (before after : List Instr) (c : Instr) (t : State) (rs : List Response) (k : Nat),
      nrEncode off l = before ++ c :: after ∧ runCommands before s = .next t ∧
      t.rsps = s.rsps ++ rs ∧ (∀ r ∈ rs, r.status = .ok) ∧
      exec c t = .next { t with esr := t.esr ||| 2#4, rsps := t.rsps ++ [⟨.outOfBounds, []⟩] } ∧
      k < bs.length ∧ t.blkcnt.toNat = k ∧ s.rlen.toNat < off.toNat + 4 * k + 4 ∧
      ∀ (j : Nat) (b : Block), j < k → bs[j]? = some b →
        t.byteAt (s.rbase.toNat + off.toNat + 4 * j) ++ t.byteAt (s.rbase.toNat + off.toNat + 4 * j + 1) = b.pid ∧
        t.byteAt (s.rbase.toNat + off.toNat + 4 * j + 2) ++ t.byteAt (s.rbase.toNat + off.toNat + 4 * j + 3) = b.blp

/-- 43_nack_run section 5: `Expand` undoes `Pack` on an ascending list. -/
def Obligations.ExpandOfPackAscending : Prop :=
  ∀ l : List Word16, ascending l = true → ∃ bs, pack l = some bs ∧ expand bs = l

/-- 43_nack_run section 5: on a non-descending list, it gives the list with runs of equal neighbours reduced to one. -/
def Obligations.ExpandOfPackDropsRepeats : Prop :=
  ∀ l : List Word16, nonDescending l = true → ∃ bs, pack l = some bs ∧ expand bs = dropRepeats l

/-- 43_nack_run section 5: no list of blocks that expands to an ascending list is shorter than `Pack` of it. -/
def Obligations.PackIsMinimal : Prop :=
  ∀ (l : List Word16) (bs other : List Block), ascending l = true → pack l = some bs → expand other = l →
    bs.length ≤ other.length

/-- 43_nack_run section 5: the number of blocks, against the number of elements once neighbouring repeats are dropped. -/
def Obligations.PackSizeBounds : Prop :=
  ∀ (l : List Word16) (bs : List Block), pack l = some bs →
    (dropRepeats l).length ≤ 17 * bs.length ∧ bs.length ≤ (dropRepeats l).length ∧ (bs = [] ↔ l = [])

/-- 43_nack_run section 5 says `|Pack(L)| <= u` for a list "with `u` distinct numbers". Read literally, of the set of
numbers, it fails: a non-descending list may go round the 16-bit space and meet a number again. -/
def Obligations.PackAtMostOneBlockPerDistinctNumber : Prop :=
  ∀ (l : List Word16) (bs : List Block), pack l = some bs → bs.length ≤ l.eraseDups.length

/-- 43_nack_run section 5: `Pack` undoes `Expand` on a packed run, and not on every run. -/
def Obligations.PackOfExpandOnlyOnPackedRuns : Prop :=
  (∀ (l : List Word16) (bs : List Block), ascending l = true → pack l = some bs → pack (expand bs) = some bs) ∧
  pack (expand [⟨10, 0⟩, ⟨11, 0⟩]) = some [⟨10, 1⟩] ∧
  pack (expand [⟨30, 1⟩, ⟨10, 0⟩]) = none

/-! ## The response port -/

/-- R79 and R80: the beats of a response, the numbers of the statuses, and the `ESR` bit of each. -/
def Obligations.ResponseBeatLayout : Prop :=
  (Status.ok.code = 0 ∧ Status.boundaryError.code = 1 ∧ Status.outOfBounds.code = 2 ∧
    Status.invalidOrderError.code = 3 ∧ Status.illegalCommand.code = 4) ∧
  (∀ e : ErrorKind, e.status.code.toNat = e.esrBit + 1) ∧
  (∀ r : Response, r.data = [] →
    ∃ w, r.beats = [w] ∧ w.toNat = r.status.code.toNat * 2 ^ 60 + 2 ^ 59) ∧
  (∀ r : Response, r.data ≠ [] →
    r.beats.length = r.data.length ∧
    ∀ (j : Nat) (d : DataPair), r.data[j]? = some d →
      ∃ w, r.beats[j]? = some w ∧
        w.toNat = (if j + 1 = r.data.length then 2 ^ 59 else 0) + 2 ^ 58 + d.d1.toNat * 2 ^ 16 + d.d0.toNat) ∧
  ∀ (w : CmdWord) (s t : State) (r : Response), execWord w s = .next t → t.rsps = s.rsps ++ [r] →
    1 < r.beats.length → ∃ off len, decode w = .ok (.nrDec off len)
end

