-- ==== Sys2Proof/Laws/Operands.lean ====
section
/-! SUPPORT. What the value computations give, in plain arithmetic: bit fields (20_memory R52), sequence numbers
(43_nack_run R143, R144), blocks in memory (42_nack_block R130), the cursor's advance (41_bit_cursor R114). -/

namespace Sys2Proof.Machine

/-! ## Bit fields -/

theorem lowOnes_getLsbD {n : Nat} (h : n ≤ 8) (j : Nat) : (lowOnes n).getLsbD j = decide (j < n) := by
  rw [lowOnes, BitVec.getLsbD_ofNat, Nat.testBit_two_pow_sub_one]
  by_cases hj : j < n
  · simp [hj]
    omega
  · simp [hj]

/-- The field's value: the byte less what stands below the field, less what stands above. -/
theorem readField_toNat (b : Byte) (k n : Nat) (h : k + n ≤ 8) :
    (readField b k n).toNat = b.toNat / 2 ^ (8 - k - n) % 2 ^ n := by
  have hpow : 2 ^ n ≤ 2 ^ 8 := Nat.pow_le_pow_right (by omega) (by omega)
  have hone : 1 ≤ 2 ^ n := Nat.one_le_two_pow
  simp only [readField, fieldShift, lowOnes, BitVec.toNat_and, BitVec.toNat_ushiftRight, BitVec.toNat_ofNat]
  rw [Nat.mod_eq_of_lt (show 2 ^ n - 1 < 2 ^ 8 by omega), Nat.and_two_pow_sub_one_eq_mod, Nat.shiftRight_eq_div_pow]

/-- A write changes the span's bits to the low bits of the value, and no other bit. -/
theorem writeField_getLsbD (old val : Byte) (k n j : Nat) (h : k + n ≤ 8) (hj : j < 8) :
    (writeField old k n val).getLsbD j =
      if 8 - k - n ≤ j ∧ j < 8 - k then val.getLsbD (j - (8 - k - n)) else old.getLsbD j := by
  have hones := lowOnes_getLsbD (n := n) (by omega)
  simp only [writeField, spanMask, fieldShift, BitVec.getLsbD_or, BitVec.getLsbD_and, BitVec.getLsbD_not,
    BitVec.getLsbD_shiftLeft, hones, hj, decide_true, Bool.true_and]
  by_cases hlow : j < 8 - k - n
  · rw [if_neg (by omega)]
    simp [hlow]
  · by_cases hhigh : j < 8 - k
    · rw [if_pos (by omega)]
      simp [hlow, show j - (8 - k - n) < n by omega]
    · rw [if_neg (by omega)]
      simp [hlow, show ¬ j - (8 - k - n) < n by omega]

/-! ## Sequence numbers -/

theorem seqSub_toNat (b a : Word16) : (seqSub b a).toNat = (b.toNat + 65536 - a.toNat) % 65536 := by
  have ha := a.isLt
  rw [seqSub, BitVec.toNat_sub]
  omega

theorem seqSub_eq_zero {a b : Word16} : (seqSub b a).toNat = 0 ↔ a = b := by
  have ha := a.isLt
  have hb := b.isLt
  rw [seqSub_toNat]
  constructor
  · intro h
    apply BitVec.eq_of_toNat_eq
    omega
  · rintro rfl
    omega

theorem seqOrder_repeats {a b : Word16} : seqOrder a b = .repeats ↔ a = b := by
  rw [← seqSub_eq_zero]
  unfold seqOrder
  split <;> rename_i h
  · simp [h]
  · split <;> simp [h]

theorem seqOrder_follows {a b : Word16} :
    seqOrder a b = .follows ↔ 1 ≤ (seqSub b a).toNat ∧ (seqSub b a).toNat ≤ 0x7FFF := by
  unfold seqOrder
  split
  · simp; omega
  · split <;> simp <;> omega

theorem seqOrder_outOfOrder {a b : Word16} : seqOrder a b = .outOfOrder ↔ 0x8000 ≤ (seqSub b a).toNat := by
  unfold seqOrder
  split
  · simp; omega
  · split <;> simp <;> omega

/-- Distances add up while they fit (43_nack_run R147). -/
theorem seqSub_add {a b c : Word16} (h : (seqSub b a).toNat + (seqSub c b).toNat < 65536) :
    (seqSub c a).toNat = (seqSub b a).toNat + (seqSub c b).toNat := by
  have ha := a.isLt
  have hb := b.isLt
  have hc := c.isLt
  rw [seqSub_toNat, seqSub_toNat] at *
  rw [seqSub_toNat] at *
  omega

/-! ## Blocks in memory -/

/-- The block four bytes hold, the higher byte of each half first. -/
theorem State.blockAt (s : State) (a : Nat) : Block.ofNat (s.memRead a 4) =
    ⟨s.byteAt a ++ s.byteAt (a + 1), s.byteAt (a + 2) ++ s.byteAt (a + 3)⟩ := by
  have h1 := (s.byteAt (a + 1)).isLt
  have h2 := (s.byteAt (a + 2)).isLt
  have h3 := (s.byteAt (a + 3)).isLt
  rw [memRead_four]
  unfold Block.ofNat
  congr 1 <;> apply BitVec.eq_of_toNat_eq <;>
    rw [BitVec.toNat_ofNat, BitVec.toNat_append, ← Nat.shiftLeft_add_eq_or_of_lt (by omega), Nat.shiftLeft_eq] <;>
    omega

/-- Every byte after a block is stored. -/
theorem State.byteAt_storeBlock (s : State) (x : Nat) (b : Block) (a : Nat) :
    (s.memWrite x 4 b.toNat).byteAt a =
      if a = x then b.pid.extractLsb' 8 8
      else if a = x + 1 then b.pid.extractLsb' 0 8
      else if a = x + 2 then b.blp.extractLsb' 8 8
      else if a = x + 3 then b.blp.extractLsb' 0 8
      else s.byteAt a := by
  have hp := b.pid.isLt
  have hm := b.blp.isLt
  have hbyte : ∀ (w : Word16) (v k : Nat), k ≤ 8 → v % 256 = w.toNat / 2 ^ k % 256 →
      BitVec.ofNat 8 v = w.extractLsb' k 8 := fun w v k _ h => by
    apply BitVec.eq_of_toNat_eq
    simpa [BitVec.extractLsb'_toNat, Nat.shiftRight_eq_div_pow] using h
  rw [byteAt_memWrite]
  unfold Block.toNat
  by_cases h0 : a = x
  · rw [if_pos (by omega), if_pos h0, show x + 4 - 1 - a = 3 by omega]
    exact hbyte _ _ 8 (by omega) (by omega)
  by_cases h1 : a = x + 1
  · rw [if_pos (by omega), if_neg h0, if_pos h1, show x + 4 - 1 - a = 2 by omega]
    exact hbyte _ _ 0 (by omega) (by omega)
  by_cases h2 : a = x + 2
  · rw [if_pos (by omega), if_neg h0, if_neg h1, if_pos h2, show x + 4 - 1 - a = 1 by omega]
    exact hbyte _ _ 8 (by omega) (by omega)
  by_cases h3 : a = x + 3
  · rw [if_pos (by omega), if_neg h0, if_neg h1, if_neg h2, if_pos h3, show x + 4 - 1 - a = 0 by omega]
    exact hbyte _ _ 0 (by omega) (by omega)
  · rw [if_neg (by omega), if_neg h0, if_neg h1, if_neg h2, if_neg h3]

/-! ## The cursor -/

/-- The two forms of `Advance(n)`: within the byte, or onto the next (41_bit_cursor R114). -/
theorem State.advance_eq (s : State) {n : Nat} (hn : s.bitIdx.toNat + n ≤ 8) (hb : s.byteIdx.toNat < 65535) :
    s.advance n =
      s.setCursor (if s.bitIdx.toNat + n = 8 then s.byteIdx + 1 else s.byteIdx)
        (if s.bitIdx.toNat + n = 8 then 0 else BitVec.ofNat 3 (s.bitIdx.toNat + n)) := by
  unfold advance bitPos
  congr 1 <;> apply BitVec.eq_of_toNat_eq <;> split <;> simp <;> omega

end Sys2Proof.Machine
end

