-- ==== Sys2Proof/Laws/Exec.lean ====
section
/-! SUPPORT. What a command that answers a next state did: its one inversion lemma, over all commands. -/

namespace Sys2Proof.Machine

/-- The errors a command can raise at all (60_exceptions R171, R184). -/
def raisable : Mnemonic → List ErrorKind
  | .regRd => [.illegalCommand]
  | .bitRd | .bitWr => [.boundaryError, .outOfBounds]
  | .nrStart => []
  | .nrPush => [.invalidOrderError, .outOfBounds]
  | .rgnSet | .curSeek | .memRdb | .memWrb | .bitRdb | .nbDec | .nbEnc | .nrDec | .nrFlush => [.outOfBounds]

/-- An access of `n` bits that passes `BitCheck` (41_bit_cursor R110). -/
def State.admits (s : State) (n : Nat) : Prop :=
  1 ≤ n ∧ s.bitIdx.toNat + n ≤ 8 ∧ s.byteIdx.toNat < s.rlen.toNat

/-- Bytes `off .. off+n-1` are in the region and exist. -/
def State.reaches (s : State) (off n : Nat) : Prop :=
  off + n ≤ s.rlen.toNat ∧ s.rbase.toNat + off + n ≤ s.memBytes

/-- The state after `StoreBlock()` (43_nack_run R148). -/
def State.stored (s : State) : State :=
  (s.memWrite (s.rbase.toNat + s.woff.toNat) 4 s.openedBlock.toNat).countBlock

/-- What a command does when it responds: the state `u` of its register and memory writes, and its data `d`. -/
def Effect (i : Instr) (s u : State) (d : List DataPair) : Prop :=
  match i with
  | .rgnSet base len => base.toNat + len.toNat ≤ s.memBytes ∧ u = s.setRegion base len ∧ d = []
  | .curSeek byte bit => 8 * byte.toNat + bit.toNat ≤ 8 * s.rlen.toNat ∧ u = s.setCursor byte bit ∧ d = []
  | .regRd idx => ∃ v, s.regValue idx.toNat = some v ∧ u = s ∧ d = [valueData v]
  | .memRdb off => s.reaches off.toNat 1 ∧ u = s ∧
      d = [valueData ((s.byteAt (s.rbase.toNat + off.toNat)).zeroExtend 16)]
  | .memWrb off val => s.reaches off.toNat 1 ∧ u = s.memWrite (s.rbase.toNat + off.toNat) 1 val.toNat ∧ d = []
  | .bitRd n => s.admits n.toNat ∧ s.reaches s.byteIdx.toNat 1 ∧ u = s.advance n.toNat ∧
      d = [valueData ((readField (s.byteAt (s.rbase.toNat + s.byteIdx.toNat)) s.bitIdx.toNat n.toNat).zeroExtend 16)]
  | .bitRdb => s.admits 1 ∧ s.reaches s.byteIdx.toNat 1 ∧ u = s.advance 1 ∧
      d = [valueData (if s.byteAt (s.rbase.toNat + s.byteIdx.toNat) >>> (7 - s.bitIdx.toNat) &&& 1#8 ≠ 0 then 1 else 0)]
  | .bitWr n val => s.admits n.toNat ∧ s.reaches s.byteIdx.toNat 1 ∧ d = [] ∧
      u = (s.memWrite (s.rbase.toNat + s.byteIdx.toNat) 1 (writeField (s.byteAt (s.rbase.toNat + s.byteIdx.toNat))
        s.bitIdx.toNat n.toNat val).toNat).advance n.toNat
  | .nbDec off => s.reaches off.toNat 4 ∧ u = s ∧
      d = [(Block.ofNat (s.memRead (s.rbase.toNat + off.toNat) 4)).toData]
  | .nbEnc off pid blp => s.reaches off.toNat 4 ∧
      u = s.memWrite (s.rbase.toNat + off.toNat) 4 (Block.mk pid blp).toNat ∧ d = []
  | .nrDec off len => len.toNat % 4 = 0 ∧ off.toNat + len.toNat ≤ s.rlen.toNat ∧ u = s ∧
      d = (expand ((List.range (len.toNat / 4)).map fun j =>
        Block.ofNat (s.memRead (s.rbase.toNat + (off.toNat + 4 * j)) 4))).map valueData
  | .nrStart off => u = s.startRun off ∧ d = []
  | .nrPush sn =>
    (s.eValid = 0 ∧ u = s.openBlock sn ∧ d = []) ∨
    (s.eValid = 1 ∧ sn = s.eLast ∧ u = s ∧ d = []) ∨
    (s.eValid = 1 ∧ seqOrder s.eLast sn = .follows ∧ (seqSub sn s.ePid).toNat ≤ 16 ∧
      u = s.extendBlock (seqSub sn s.ePid).toNat sn ∧ d = []) ∨
    (s.eValid = 1 ∧ seqOrder s.eLast sn = .follows ∧ 16 < (seqSub sn s.ePid).toNat ∧ s.reaches s.woff.toNat 4 ∧
      u = s.stored.openBlock sn ∧ d = [s.openedBlock.toData])
  | .nrFlush =>
    (s.eValid = 0 ∧ u = s ∧ d = []) ∨
    (s.eValid = 1 ∧ s.reaches s.woff.toNat 4 ∧ u = s.stored.closeBlock ∧ d = [s.openedBlock.toData])

namespace State

/-- A read that went through. -/
theorem rgnRead_ok {s : State} {off n v : Nat} (h : s.rgnRead off n = .ok v) :
    s.reaches off n ∧ v = s.memRead (s.rbase.toNat + off) n := by
  rcases s.rgnAddr_cases off n with ⟨-, e⟩ | ⟨h1, h2, e⟩ | ⟨-, -, e⟩ <;> simp [rgnRead, e] at h
  exact ⟨⟨h1, h2⟩, h.symm⟩

/-- A bounded access raises `OutOfBounds` or nothing. -/
theorem rgnRead_raised {s : State} {off n : Nat} {e : ErrorKind} (h : s.rgnRead off n = .error (.raised e)) :
    e = .outOfBounds := by
  rcases s.rgnAddr_cases off n with ⟨-, e'⟩ | ⟨-, -, e'⟩ | ⟨-, -, e'⟩ <;> simp [rgnRead, e'] at h
  exact h.symm

theorem rgnWrite_raised {s : State} {off n v : Nat} {e : ErrorKind} (h : s.rgnWrite off n v = .error (.raised e)) :
    e = .outOfBounds := by
  rcases s.rgnAddr_cases off n with ⟨-, e'⟩ | ⟨-, -, e'⟩ | ⟨-, -, e'⟩ <;> simp [rgnWrite, e'] at h
  exact h.symm

theorem readBlock_ok {s : State} {off : Nat} {b : Block} (h : s.readBlock off = .ok b) :
    s.reaches off 4 ∧ b = Block.ofNat (s.memRead (s.rbase.toNat + off) 4) := by
  unfold readBlock at h
  cases hr : s.rgnRead off 4 <;> simp [hr] at h
  obtain ⟨h1, rfl⟩ := rgnRead_ok hr
  exact ⟨h1, h.symm⟩

theorem readBlock_raised {s : State} {off : Nat} {e : ErrorKind} (h : s.readBlock off = .error (.raised e)) :
    e = .outOfBounds := by
  unfold readBlock at h
  cases hr : s.rgnRead off 4 <;> simp [hr] at h
  exact rgnRead_raised (h ▸ hr)

theorem readBlocks_ok {s : State} {off k : Nat} {bs : List Block} (h : s.readBlocks off k = .ok bs) :
    bs = (List.range k).map fun j => Block.ofNat (s.memRead (s.rbase.toNat + (off + 4 * j)) 4) := by
  induction k generalizing off bs with
  | zero =>
    simp [readBlocks] at h
    simp [h]
  | succ k ih =>
    rw [readBlocks] at h
    cases hb : s.readBlock off <;> simp [hb] at h
    cases hr : s.readBlocks (off + 4) k <;> simp [hr] at h
    have hj : ∀ j, off + 4 + 4 * j = off + 4 * (j + 1) := fun j => by omega
    rw [← h, (readBlock_ok hb).2, ih hr, List.range_succ_eq_map]
    simp [Function.comp_def, hj]

theorem readBlocks_raised {s : State} {off k : Nat} {e : ErrorKind}
    (h : s.readBlocks off k = .error (.raised e)) : e = .outOfBounds := by
  induction k generalizing off with
  | zero => simp [readBlocks] at h
  | succ k ih =>
    rw [readBlocks] at h
    cases hb : s.readBlock off <;> simp [hb] at h
    · exact readBlock_raised (h ▸ hb)
    · cases hr : s.readBlocks (off + 4) k <;> simp [hr] at h
      exact ih (h ▸ hr)

theorem bitCheck_ok {s : State} {n : Nat} {x : Unit} (h : s.bitCheck n = .ok x) : s.admits n := by
  rcases s.bitCheck_cases n with ⟨-, e⟩ | ⟨-, -, -, e⟩ | ⟨h1, h2, h3, -⟩
  · simp [e] at h
  · simp [e] at h
  · exact ⟨h1, h2, h3⟩

theorem bitCheck_raised {s : State} {n : Nat} {e : ErrorKind} (h : s.bitCheck n = .error (.raised e)) :
    e = .boundaryError ∨ e = .outOfBounds := by
  rcases s.bitCheck_cases n with ⟨-, e'⟩ | ⟨-, -, -, e'⟩ | ⟨-, -, -, e'⟩ <;> simp [e'] at h <;> simp [← h]

/-- With one bit the boundary tests cannot fail (41_bit_cursor R112). -/
theorem bitCheck_one_raised {s : State} {e : ErrorKind} (h : s.bitCheck 1 = .error (.raised e)) :
    e = .outOfBounds := by
  have hb := s.bitIdx.isLt
  rcases s.bitCheck_cases 1 with ⟨h', -⟩ | ⟨-, -, -, e'⟩ | ⟨-, -, -, e'⟩
  · omega
  · simp [e'] at h
    exact h.symm
  · simp [e'] at h

theorem storeBlock_stored {s t : State} (h : s.storeBlock = .ok t) : s.reaches s.woff.toNat 4 ∧ t = s.stored := by
  obtain ⟨h1, h2, rfl⟩ := storeBlock_ok h
  exact ⟨⟨h1, h2⟩, rfl⟩

theorem storeBlock_raised {s : State} {e : ErrorKind} (h : s.storeBlock = .error (.raised e)) : e = .outOfBounds := by
  unfold storeBlock at h
  cases hw : s.rgnWrite s.woff.toNat 4 s.openedBlock.toNat <;> simp [hw] at h
  exact rgnWrite_raised (h ▸ hw)

end State

theorem bit_eq_one {x : Bit} (h : ¬ x = 0) : x = 1 := by
  revert x
  decide

/-- A command that answers a next state responded, having had its effect, or raised an error of its own. -/
theorem exec_cases {i : Instr} {s t : State} (h : exec i s = .next t) :
    (∃ u d, Effect i s u d ∧ t = u.respond d) ∨ (∃ e ∈ raisable i.mnemonic, t = s.raise e) := by
  cases i with
  | rgnSet base len =>
    simp only [exec, execRgnSet, Host.Outcome.next.injEq] at h
    split at h
    · exact .inr ⟨_, by simp [raisable, Instr.mnemonic], h.symm⟩
    · exact .inl ⟨_, _, ⟨by omega, rfl, rfl⟩, h.symm⟩
  | curSeek byte bit =>
    rcases State.conclude_next h with ⟨u, d, hr, rfl⟩ | ⟨e, hr, rfl⟩
    · split at hr <;> simp at hr
      exact .inl ⟨u, d, ⟨by omega, hr.1.symm, hr.2⟩, rfl⟩
    · split at hr <;> simp at hr
      exact .inr ⟨e, by simp [raisable, Instr.mnemonic, ← hr], rfl⟩
  | regRd idx =>
    rcases State.conclude_next h with ⟨u, d, hr, rfl⟩ | ⟨e, hr, rfl⟩
    · split at hr <;> simp at hr
      rename_i v hv
      exact .inl ⟨u, d, ⟨v, hv, hr.1.symm, hr.2.symm⟩, rfl⟩
    · split at hr <;> simp at hr
      exact .inr ⟨e, by simp [raisable, Instr.mnemonic, ← hr], rfl⟩
  | memRdb off =>
    rcases State.conclude_next h with ⟨u, d, hr, rfl⟩ | ⟨e, hr, rfl⟩
    · cases hv : s.rgnRead off.toNat 1 <;> simp [hv] at hr
      obtain ⟨h1, rfl⟩ := State.rgnRead_ok hv
      refine .inl ⟨u, d, ⟨h1, hr.1.symm, ?_⟩, rfl⟩
      rw [← hr.2, State.memRead_one]
      simp
    · cases hv : s.rgnRead off.toNat 1 <;> simp [hv] at hr
      exact .inr ⟨e, by simp [raisable, Instr.mnemonic, State.rgnRead_raised (hr ▸ hv)], rfl⟩
  | memWrb off val =>
    rcases State.conclude_next h with ⟨u, d, hr, rfl⟩ | ⟨e, hr, rfl⟩
    · cases hv : s.rgnWrite off.toNat 1 val.toNat <;> simp [hv] at hr
      obtain ⟨h1, h2, rfl⟩ := State.rgnWrite_ok hv
      exact .inl ⟨u, d, ⟨⟨h1, h2⟩, hr.1.symm, hr.2⟩, rfl⟩
    · cases hv : s.rgnWrite off.toNat 1 val.toNat <;> simp [hv] at hr
      exact .inr ⟨e, by simp [raisable, Instr.mnemonic, State.rgnWrite_raised (hr ▸ hv)], rfl⟩
  | bitRd n =>
    rcases State.conclude_next h with ⟨u, d, hr, rfl⟩ | ⟨e, hr, rfl⟩
    · cases hc : s.bitCheck n.toNat <;> simp [hc] at hr
      cases hv : s.rgnRead s.byteIdx.toNat 1 <;> simp [hv] at hr
      obtain ⟨h1, rfl⟩ := State.rgnRead_ok hv
      refine .inl ⟨u, d, ⟨State.bitCheck_ok hc, h1, hr.1.symm, ?_⟩, rfl⟩
      rw [← hr.2, State.memRead_one]
      simp
    · cases hc : s.bitCheck n.toNat <;> simp [hc] at hr
      · rcases State.bitCheck_raised (hr ▸ hc) with rfl | rfl <;>
          exact .inr ⟨_, by simp [raisable, Instr.mnemonic], rfl⟩
      · cases hv : s.rgnRead s.byteIdx.toNat 1 <;> simp [hv] at hr
        exact .inr ⟨e, by simp [raisable, Instr.mnemonic, State.rgnRead_raised (hr ▸ hv)], rfl⟩
  | bitRdb =>
    rcases State.conclude_next h with ⟨u, d, hr, rfl⟩ | ⟨e, hr, rfl⟩
    · cases hc : s.bitCheck 1 <;> simp [hc] at hr
      cases hv : s.rgnRead s.byteIdx.toNat 1 <;> simp [hv] at hr
      obtain ⟨h1, rfl⟩ := State.rgnRead_ok hv
      refine .inl ⟨u, d, ⟨State.bitCheck_ok hc, h1, hr.1.symm, ?_⟩, rfl⟩
      rw [← hr.2, State.memRead_one]
      simp
    · cases hc : s.bitCheck 1 <;> simp [hc] at hr
      · exact .inr ⟨e, by simp [raisable, Instr.mnemonic, State.bitCheck_one_raised (hr ▸ hc)], rfl⟩
      · cases hv : s.rgnRead s.byteIdx.toNat 1 <;> simp [hv] at hr
        exact .inr ⟨e, by simp [raisable, Instr.mnemonic, State.rgnRead_raised (hr ▸ hv)], rfl⟩
  | bitWr n val =>
    rcases State.conclude_next h with ⟨u, d, hr, rfl⟩ | ⟨e, hr, rfl⟩
    · cases hc : s.bitCheck n.toNat <;> simp [hc] at hr
      cases hv : s.rgnRead s.byteIdx.toNat 1 <;> simp only [hv, error_bind, ok_bind, reduceCtorEq] at hr
      rename_i old
      obtain ⟨h1, rfl⟩ := State.rgnRead_ok hv
      cases hw : s.rgnWrite s.byteIdx.toNat 1 (writeField (BitVec.ofNat 8 (s.memRead (s.rbase.toNat + s.byteIdx.toNat) 1))
        s.bitIdx.toNat n.toNat val).toNat <;> simp [hw] at hr
      obtain ⟨-, -, rfl⟩ := State.rgnWrite_ok hw
      refine .inl ⟨u, d, ⟨State.bitCheck_ok hc, h1, hr.2, ?_⟩, rfl⟩
      rw [← hr.1, State.memRead_one]
      simp
    · cases hc : s.bitCheck n.toNat <;> simp [hc] at hr
      · rcases State.bitCheck_raised (hr ▸ hc) with rfl | rfl <;>
          exact .inr ⟨_, by simp [raisable, Instr.mnemonic], rfl⟩
      · cases hv : s.rgnRead s.byteIdx.toNat 1 <;> simp only [hv, error_bind, ok_bind, Except.error.injEq] at hr
        · exact .inr ⟨e, by simp [raisable, Instr.mnemonic, State.rgnRead_raised (hr ▸ hv)], rfl⟩
        · rename_i old
          cases hw : s.rgnWrite s.byteIdx.toNat 1 (writeField (BitVec.ofNat 8 old) s.bitIdx.toNat n.toNat val).toNat <;>
            simp [hw] at hr
          exact .inr ⟨e, by simp [raisable, Instr.mnemonic, State.rgnWrite_raised (hr ▸ hw)], rfl⟩
  | nbDec off =>
    rcases State.conclude_next h with ⟨u, d, hr, rfl⟩ | ⟨e, hr, rfl⟩
    · cases hv : s.readBlock off.toNat <;> simp [hv] at hr
      obtain ⟨h1, rfl⟩ := State.readBlock_ok hv
      exact .inl ⟨u, d, ⟨h1, hr.1.symm, hr.2.symm⟩, rfl⟩
    · cases hv : s.readBlock off.toNat <;> simp [hv] at hr
      exact .inr ⟨e, by simp [raisable, Instr.mnemonic, State.readBlock_raised (hr ▸ hv)], rfl⟩
  | nbEnc off pid blp =>
    rcases State.conclude_next h with ⟨u, d, hr, rfl⟩ | ⟨e, hr, rfl⟩
    · cases hv : s.rgnWrite off.toNat 4 (Block.mk pid blp).toNat <;> simp [hv] at hr
      obtain ⟨h1, h2, rfl⟩ := State.rgnWrite_ok hv
      exact .inl ⟨u, d, ⟨⟨h1, h2⟩, hr.1.symm, hr.2⟩, rfl⟩
    · cases hv : s.rgnWrite off.toNat 4 (Block.mk pid blp).toNat <;> simp [hv] at hr
      exact .inr ⟨e, by simp [raisable, Instr.mnemonic, State.rgnWrite_raised (hr ▸ hv)], rfl⟩
  | nrDec off len =>
    rcases State.conclude_next h with ⟨u, d, hr, rfl⟩ | ⟨e, hr, rfl⟩
    · split at hr
      · simp at hr
      · split at hr
        · simp at hr
        · cases hv : s.readBlocks off.toNat (len.toNat / 4) <;> simp [hv] at hr
          refine .inl ⟨u, d, ⟨by omega, by omega, hr.1.symm, ?_⟩, rfl⟩
          rw [← hr.2, State.readBlocks_ok hv]
    · split at hr
      · simp at hr
        exact .inr ⟨e, by simp [raisable, Instr.mnemonic, ← hr], rfl⟩
      · split at hr
        · simp at hr
          exact .inr ⟨e, by simp [raisable, Instr.mnemonic, ← hr], rfl⟩
        · cases hv : s.readBlocks off.toNat (len.toNat / 4) <;> simp [hv] at hr
          exact .inr ⟨e, by simp [raisable, Instr.mnemonic, State.readBlocks_raised (hr ▸ hv)], rfl⟩
  | nrStart off =>
    simp only [exec, execNrStart, State.conclude_ok, Host.Outcome.next.injEq] at h
    exact .inl ⟨_, _, ⟨rfl, rfl⟩, h.symm⟩
  | nrPush sn =>
    rcases State.conclude_next h with ⟨u, d, hr, rfl⟩ | ⟨e, hr, rfl⟩
    · refine .inl ⟨u, d, ?_, rfl⟩
      split at hr
      · rename_i hv
        simp at hr
        exact .inl ⟨hv, hr.1.symm, hr.2⟩
      · rename_i hv
        have hv := bit_eq_one hv
        split at hr
        · rename_i ho
          simp at hr
          exact .inr (.inl ⟨hv, (seqOrder_repeats.1 ho).symm, hr.1.symm, hr.2⟩)
        · simp at hr
        · rename_i ho
          unfold State.pushFollowing at hr
          split at hr
          · rename_i h16
            simp at hr
            exact .inr (.inr (.inl ⟨hv, ho, h16, hr.1.symm, hr.2⟩))
          · cases hs : s.storeBlock <;> simp [hs] at hr
            obtain ⟨h1, rfl⟩ := State.storeBlock_stored hs
            exact .inr (.inr (.inr ⟨hv, ho, by omega, h1, hr.1.symm, hr.2.symm⟩))
    · split at hr
      · simp at hr
      · split at hr
        · simp at hr
        · simp at hr
          exact .inr ⟨e, by simp [raisable, Instr.mnemonic, ← hr], rfl⟩
        · unfold State.pushFollowing at hr
          split at hr
          · simp at hr
          · cases hs : s.storeBlock <;> simp [hs] at hr
            exact .inr ⟨e, by simp [raisable, Instr.mnemonic, State.storeBlock_raised (hr ▸ hs)], rfl⟩
  | nrFlush =>
    rcases State.conclude_next h with ⟨u, d, hr, rfl⟩ | ⟨e, hr, rfl⟩
    · refine .inl ⟨u, d, ?_, rfl⟩
      split at hr
      · rename_i hv
        simp at hr
        exact .inl ⟨hv, hr.1.symm, hr.2⟩
      · rename_i hv
        cases hs : s.storeBlock <;> simp [hs] at hr
        obtain ⟨h1, rfl⟩ := State.storeBlock_stored hs
        exact .inr ⟨bit_eq_one hv, h1, hr.1.symm, hr.2.symm⟩
    · split at hr
      · simp at hr
      · cases hs : s.storeBlock <;> simp [hs] at hr
        exact .inr ⟨e, by simp [raisable, Instr.mnemonic, State.storeBlock_raised (hr ▸ hs)], rfl⟩

end Sys2Proof.Machine
end

