-- ==== Sys2Proof/Machine/Assembler.lean ====
section
/-! DEFINITION. Assembler text (30_encoding R82): one line to the commands, and the words, it stands for. It shapes no step
of the machine. What R82 leaves open of the text is assumption 8. -/

namespace Sys2Proof.Machine

/-- The mnemonics as R74 spells them, in upper case. -/
def mnemonicNames : List (String × Mnemonic) :=
  [ ("RGN.SET", .rgnSet), ("CUR.SEEK", .curSeek), ("REG.RD", .regRd), ("MEM.RDB", .memRdb), ("MEM.WRB", .memWrb),
    ("BIT.RD", .bitRd), ("BIT.RDB", .bitRdb), ("BIT.WR", .bitWr), ("NB.DEC", .nbDec), ("NB.ENC", .nbEnc),
    ("NR.DEC", .nrDec), ("NR.START", .nrStart), ("NR.PUSH", .nrPush), ("NR.FLUSH", .nrFlush) ]

/-- A `;` starts a comment. -/
def stripComment (cs : List Char) : List Char := cs.takeWhile fun c => c != ';'

/-- A space or a tab. -/
def isBlank (c : Char) : Bool := c == ' ' || c == '\t'

/-- Without blanks at either end. -/
def trimBlanks (cs : List Char) : List Char := ((cs.dropWhile isBlank).reverse.dropWhile isBlank).reverse

/-- The parts between commas. -/
def splitCommas : List Char → List (List Char)
  | [] => [[]]
  | c :: cs =>
    if c = ',' then [] :: splitCommas cs
    else match splitCommas cs with
      | [] => [[c]]
      | part :: parts => (c :: part) :: parts

/-- The value of a digit in either base. -/
def digitValue (c : Char) : Option Nat :=
  if '0'.toNat ≤ c.toNat ∧ c.toNat ≤ '9'.toNat then some (c.toNat - '0'.toNat)
  else if 'A'.toNat ≤ c.toNat ∧ c.toNat ≤ 'F'.toNat then some (c.toNat - 'A'.toNat + 10)
  else if 'a'.toNat ≤ c.toNat ∧ c.toNat ≤ 'f'.toNat then some (c.toNat - 'a'.toNat + 10)
  else none

/-- Digits of a base, most significant first, after what has been read already. -/
def digitsValue (base : Nat) (acc : Nat) : List Char → Option Nat
  | [] => some acc
  | c :: cs =>
    match digitValue c with
    | some d => if d < base then digitsValue base (acc * base + d) cs else none
    | none => none

/-- A decimal number (`26`) or a hexadecimal one (`0xD555`). -/
def parseNumber (cs : List Char) : Option Nat :=
  match trimBlanks cs with
  | [] => none
  | '0' :: 'x' :: d :: ds => digitsValue 16 0 (d :: ds)
  | d :: ds => digitsValue 10 0 (d :: ds)

/-- Every part parsed, or none. -/
def parseParts : List (List Char) → Option (List Nat)
  | [] => some []
  | part :: parts => do
    let n ← parseNumber part
    let ns ← parseParts parts
    some (n :: ns)

/-- Numbers separated by commas; nothing at all is the empty list. -/
def parseNumbers (cs : List Char) : Option (List Nat) :=
  if trimBlanks cs = [] then some [] else parseParts (splitCommas cs)

/-- A 16-bit operand of `NR.ENCODE`; none if it does not fit. -/
def fit16 (n : Nat) : Option Word16 := if n < 65536 then some (BitVec.ofNat 16 n) else none

/-- Every number fitted to 16 bits, or none. -/
def fitAll16 : List Nat → Option (List Word16)
  | [] => some []
  | n :: ns => do
    let w ← fit16 n
    let ws ← fitAll16 ns
    some (w :: ws)

/-- The text between `[` and `]`. -/
def bracketed (cs : List Char) : Option (List Char) :=
  match trimBlanks cs with
  | '[' :: rest =>
    match rest.reverse with
    | ']' :: inner => some inner.reverse
    | _ => none
  | _ => none

/-- The operands of `NR.ENCODE off, [s0, ..., sk]`. -/
def parseEncode (cs : List Char) : Option (List Instr) := do
  let off ← parseNumber (cs.takeWhile fun c => c != ',')
  let off ← fit16 off
  let inner ← bracketed ((cs.dropWhile fun c => c != ',').drop 1)
  let ns ← parseNumbers inner
  let ws ← fitAll16 ns
  some (nrEncode off ws)

/-- One line of assembler text; none is an assembly error, a line without a command stands for no command. -/
def assembleLine (text : String) : Option (List Instr) :=
  let body := trimBlanks (stripComment text.toList)
  let name := body.takeWhile fun c => !isBlank c
  let args := body.dropWhile fun c => !isBlank c
  if body = [] then some []
  else if name = "CUR.REWIND".toList then
    if trimBlanks args = [] then some [curRewind] else none
  else if name = "NR.ENCODE".toList then parseEncode args
  else do
    let row ← mnemonicNames.find? fun r => r.1.toList == name
    let ns ← parseNumbers args
    let i ← (AsmLine.mk row.2 ns).assemble
    some [i]

/-- The words a line assembles to. -/
def assembleWords (text : String) : Option (List CmdWord) := (assembleLine text).map fun is => is.map encode

end Sys2Proof.Machine
end

