-- ==== Sys2Proof/Tests/Slice0.lean ====
section
/-! SUPPORT. Tests, with expected values from the vectors of 95_test_vectors (named V30, V40 to V43, P1 to P6), and for every
statement with hypotheses a state that meets them. -/

namespace Sys2Proof.Tests

open Sys2Proof.Machine

/-! ## Well-formedness: each check refuses an ill-formed line (R82) -/

theorem test_arity_refused : (AsmLine.mk .nrDec [0]).arityOk = false ∧ (AsmLine.mk .nrDec [0]).wellFormed = false := by
  decide

theorem test_operand_refused : (AsmLine.mk .bitRd [256]).operandsFit = false ∧
    (AsmLine.mk .curSeek [0, 8]).operandsFit = false ∧ (AsmLine.mk .memRdb [65536]).operandsFit = false ∧
    (AsmLine.mk .curSeek [0, 8]).wellFormed = false := by decide

theorem test_wellFormed_accepts : (AsmLine.mk .curSeek [65535, 7]).wellFormed = true ∧
    (AsmLine.mk .bitWr [255, 255]).wellFormed = true ∧ (AsmLine.mk .bitRdb []).wellFormed = true := by decide

/-! ## Encoding (V30: words written out there) -/

theorem test_decode_region : decodeTableWord 64 0x01000010000C0000 = some (.rgnSet 16 12) ∧
    decodeTableWord 64 0x0206000100000000 = some (.curSeek 1 6) ∧
    decodeTableWord 64 0x030A000000000000 = some (.regRd 10) ∧
    decodeTableWord 64 0x0400000300000000 = some (.memRdb 3) ∧
    decodeTableWord 64 0x05000003000000AB = some (.memWrb 3 0xAB) := by decide

theorem test_decode_cursor : decodeTableWord 64 0x1005000000000000 = some (.bitRd 5) ∧
    decodeTableWord 64 0x1100000000000000 = some .bitRdb ∧
    decodeTableWord 64 0x120500000000000F = some (.bitWr 5 0x0F) := by decide

theorem test_decode_nack : decodeTableWord 64 0x2000000400000000 = some (.nbDec 4) ∧
    decodeTableWord 64 0x21000004000AD555 = some (.nbEnc 4 10 0xD555) ∧
    decodeTableWord 64 0x3000000000100000 = some (.nrDec 0 16) ∧
    decodeTableWord 64 0x3100000400000000 = some (.nrStart 4) ∧
    decodeTableWord 64 0x32000000FFFE0000 = some (.nrPush 65534) ∧
    decodeTableWord 64 0x3300000000000000 = some .nrFlush := by decide

theorem test_decode_reserved_bits : decode 0x1003FFFFFFFFFFFF#64 = .ok (.bitRd 3) ∧
    decode 0x11FFFFFFFFFFFFFF#64 = .ok .bitRdb ∧ decode 0x02FE000100000000#64 = .ok (.curSeek 1 6) ∧
    decode 0x120300000000FFFD#64 = .ok (.bitWr 3 0xFD) ∧ decode 0x05000003FFFF12AB#64 = .ok (.memWrb 3 0xAB) ∧
    decode 0x32AB123400070000#64 = .ok (.nrPush 7) ∧ canonicalWord 0x32AB123400070000#64 = false ∧
    canonicalWord 0x02FE000100000000#64 = false ∧ canonicalWord 0x0206000100000000#64 = true := by decide

theorem test_decode_illegal : decodeTableWord 64 0 = none ∧ decodeTableWord 64 0xFFFFFFFFFFFFFFFF = none ∧
    decode 0x0600000000000000#64 = .error (.undefinedOpcode 0x06) ∧
    decode 0x1300000000000000#64 = .error (.undefinedOpcode 0x13) ∧
    decode 0x2200000000000000#64 = .error (.undefinedOpcode 0x22) ∧
    decode 0x3400000000000000#64 = .error (.undefinedOpcode 0x34) := by decide

theorem test_encode : encode (.rgnSet 16 12) = 0x01000010000C0000#64 ∧ encode (.curSeek 1 6) = 0x0206000100000000#64 ∧
    encode (.memWrb 3 0xAB) = 0x05000003000000AB#64 ∧ encode (.bitWr 5 0x0F) = 0x120500000000000F#64 ∧
    encode (.nbEnc 4 10 0xD555) = 0x21000004000AD555#64 ∧ encode (.nrDec 0 16) = 0x3000000000100000#64 ∧
    encode (.nrPush 65534) = 0x32000000FFFE0000#64 ∧ encode curRewind = 0x0200000000000000#64 := by decide

/-- Lines of V30, and a line R82 calls an assembly error. -/
theorem test_assemble_line : assembleLine "NB.ENC 4, 10, 0xD555 ; one block" = some [.nbEnc 4 10 0xD555] ∧
    assembleLine "CUR.REWIND" = some [.curSeek 0 0] ∧ assembleLine "BIT.RD 256" = none ∧
    assembleLine "NR.ENCODE 4, [7, 24]" = some [.nrStart 4, .nrPush 7, .nrPush 24, .nrFlush] := by decide

/-! ## One step of each command -/

/-- `MEM_BYTES = 64` and a region over the four bytes at 60, as from step 8 of V40. -/
def small : State := { State.reset with
  memBytes := 64, rbase := 60, rlen := 4, mem := [(60, 0x12), (61, 0x34), (62, 0xAB), (63, 0xCD)] }

/-- The byte under the cursor is `v`, the cursor is at bit `b` of it. -/
def onByte (v : Byte) (b : BitVec 3) : State := { State.reset with memBytes := 64, rlen := 1, bitIdx := b, mem := [(0, v)] }

/-- The state of V43's streaming sequence after its step 6: a region of 4 bytes with one block stored. -/
def full : State := { State.reset with
  memBytes := 64, rlen := 4, mem := [(0, 0x00), (1, 0x64), (2, 0x80), (3, 0x00)]
  eValid := 1, ePid := 117, eBlp := 0x8000, eLast := 133, woff := 4, blkcnt := 1 }

/-- The same with the region extended to 8 bytes, as after step 14. -/
def room : State := { full with rlen := 8 }

/-- A field of the next state. -/
def after {α : Type} (f : State → α) (o : Host.Outcome State Fault Refusal) : Option α :=
  match o with
  | .next t => some (f t)
  | _ => none

/-- V40 steps 1, 8 and 20: the sum is exact. -/
theorem test_rgnSet : after (fun t => (t.rbase, t.rlen, t.esr)) (exec (.rgnSet 60 5) small) = some (60, 4, 2) ∧
    after (fun t => (t.rbase, t.rlen, t.byteIdx, t.esr)) (exec (.rgnSet 64 0) { small with byteIdx := 4 }) =
      some (64, 0, 0, 0) ∧
    after State.rsps (exec (.rgnSet 0xFFFF 0xFFFF) small) = some [⟨.outOfBounds, []⟩] := by decide

/-- V40 steps 9 to 11. -/
theorem test_curSeek : after (fun t => (t.byteIdx, t.bitIdx, t.esr)) (exec (.curSeek 4 0) small) = some (4, 0, 0) ∧
    after (fun t => (t.byteIdx, t.bitIdx, t.esr)) (exec (.curSeek 4 1) small) = some (0, 0, 2) ∧
    after State.esr (exec (.curSeek 5 0) small) = some 2 := by decide

/-- V43 steps 8 to 13, V40 step 18. -/
theorem test_regRd : after State.rsps (exec (.regRd 5) full) = some [⟨.ok, [⟨0, 1⟩]⟩] ∧
    after State.rsps (exec (.regRd 6) full) = some [⟨.ok, [⟨0, 117⟩]⟩] ∧
    after State.rsps (exec (.regRd 7) full) = some [⟨.ok, [⟨0, 0x8000⟩]⟩] ∧
    after State.rsps (exec (.regRd 8) full) = some [⟨.ok, [⟨0, 133⟩]⟩] ∧
    after State.rsps (exec (.regRd 9) full) = some [⟨.ok, [⟨0, 4⟩]⟩] ∧
    after State.rsps (exec (.regRd 10) full) = some [⟨.ok, [⟨0, 1⟩]⟩] ∧
    after (fun t => (t.esr, t.rsps)) (exec (.regRd 11) full) = some (8, [⟨.illegalCommand, []⟩]) := by decide

/-- V40 steps 16, 17 and 19, and R33 for the cursor. -/
theorem test_regRd_low : after State.rsps (exec (.regRd 0) small) = some [⟨.ok, [⟨0, 60⟩]⟩] ∧
    after State.rsps (exec (.regRd 1) small) = some [⟨.ok, [⟨0, 4⟩]⟩] ∧
    after State.rsps (exec (.regRd 2) { small with byteIdx := 4 }) = some [⟨.ok, [⟨0, 4⟩]⟩] ∧
    after State.rsps (exec (.regRd 3) { small with bitIdx := 6 }) = some [⟨.ok, [⟨0, 6⟩]⟩] ∧
    after State.rsps (exec (.regRd 4) { small with esr := 0xB }) = some [⟨.ok, [⟨0, 0xB⟩]⟩] := by decide

/-- V40 steps 25 to 28 and 15. -/
theorem test_memRdb : after State.rsps (exec (.memRdb 0) small) = some [⟨.ok, [⟨0, 0x12⟩]⟩] ∧
    after State.rsps (exec (.memRdb 3) small) = some [⟨.ok, [⟨0, 0xCD⟩]⟩] ∧
    after State.rsps (exec (.memRdb 4) small) = some [⟨.outOfBounds, []⟩] := by decide

/-- V40 steps 12 and 14. -/
theorem test_memWrb : after (fun t => (t.byteAt 63, t.byteIdx)) (exec (.memWrb 3 0xAB) small) = some (0xAB, 0) ∧
    after (fun t => (t.mem, t.esr)) (exec (.memWrb 4 1) small) = some (small.mem, 2) := by decide

/-- V41: three cells of its table of reads; `BoundaryError` in its blank part. -/
theorem test_bitRd : after (fun t => (t.rsps, t.byteIdx, t.bitIdx)) (exec (.bitRd 3) (onByte 0xA5 2)) =
      some ([⟨.ok, [⟨0, 4⟩]⟩], 0, 5) ∧
    after (fun t => (t.rsps, t.byteIdx, t.bitIdx)) (exec (.bitRd 7) (onByte 0xA5 1)) =
      some ([⟨.ok, [⟨0, 37⟩]⟩], 1, 0) ∧
    after (fun t => (t.rsps, t.bitIdx)) (exec (.bitRd 3) (onByte 0xA5 6)) = some ([⟨.boundaryError, []⟩], 6) := by decide

/-- V41, "tested first": at the end of the region `n` outside 1 to 8 is `BoundaryError`, inside is `OutOfBounds`. -/
theorem test_bitRd_order :
    after State.rsps (exec (.bitRd 9) { onByte 0xA5 0 with byteIdx := 1 }) = some [⟨.boundaryError, []⟩] ∧
    after State.rsps (exec (.bitRd 0) { onByte 0xA5 0 with byteIdx := 1 }) = some [⟨.boundaryError, []⟩] ∧
    after State.rsps (exec (.bitRd 8) { onByte 0xA5 0 with byteIdx := 1 }) = some [⟨.outOfBounds, []⟩] := by decide

/-- V41, the column `n = 1`. -/
theorem test_bitRdb : after (fun t => (t.rsps, t.bitIdx)) (exec .bitRdb (onByte 0xA5 5)) = some ([⟨.ok, [⟨0, 1⟩]⟩], 6) ∧
    after (fun t => (t.rsps, t.byteIdx, t.bitIdx)) (exec .bitRdb (onByte 0xA5 7)) =
      some ([⟨.ok, [⟨0, 1⟩]⟩], 1, 0) ∧
    after State.rsps (exec .bitRdb (onByte 0xA5 6)) = some [⟨.ok, [⟨0, 0⟩]⟩] := by decide

/-- V41's table of writes: rows `(4, 2, 0x06)`, `(3, 5, 0x15)`, `(1, 6, 0x2A)`. -/
theorem test_bitWr : after (fun t => (t.byteAt 0, t.byteIdx, t.bitIdx)) (exec (.bitWr 2 0x06) (onByte 0x3C 4)) =
      some (0x38, 0, 6) ∧
    after (fun t => (t.byteAt 0, t.byteIdx, t.bitIdx)) (exec (.bitWr 5 0x15) (onByte 0x3C 3)) = some (0x35, 1, 0) ∧
    after (fun t => (t.byteAt 0, t.byteIdx, t.bitIdx)) (exec (.bitWr 6 0x2A) (onByte 0x3C 1)) = some (0x54, 0, 7) := by
  decide

/-- V41: rows `(6, 3)` and `(0, 0)`, nothing written. -/
theorem test_bitWr_boundary :
    after (fun t => (t.mem, t.bitIdx, t.esr)) (exec (.bitWr 3 0xFF) (onByte 0x3C 6)) = some ([(0, 0x3C)], 6, 1) ∧
    after (fun t => (t.mem, t.bitIdx, t.esr)) (exec (.bitWr 0 0xFF) (onByte 0x3C 0)) = some ([(0, 0x3C)], 0, 1) := by
  decide

/-- V40 steps 22 and 24. -/
theorem test_nbDec : after State.rsps (exec (.nbDec 0) small) = some [⟨.ok, [⟨0x1234, 0xABCD⟩]⟩] ∧
    after State.rsps (exec (.nbDec 1) small) = some [⟨.outOfBounds, []⟩] := by decide

/-- V42's first row, and V40 step 23. -/
theorem test_nbEnc : after (fun t => (t.mem, t.rsps)) (exec (.nbEnc 0 10 0xD555) small) =
      some ([(60, 0x00), (61, 0x0A), (62, 0xD5), (63, 0x55)], [⟨.ok, []⟩]) ∧
    after (fun t => (t.mem, t.esr)) (exec (.nbEnc 1 1 1) small) = some (small.mem, 2) := by decide

/-- V43's `Expand` of `FF FF 80 01`, V43 sequence: `NR.DEC 0, 2` refused. -/
theorem test_nrDec :
    after State.rsps (exec (.nrDec 0 4) { small with mem := [(60, 0xFF), (61, 0xFF), (62, 0x80), (63, 0x01)] }) =
      some [⟨.ok, [⟨0, 65535⟩, ⟨0, 0⟩, ⟨0, 15⟩]⟩] ∧
    after State.rsps (exec (.nrDec 0 2) small) = some [⟨.outOfBounds, []⟩] ∧
    after State.rsps (exec (.nrDec 4 0) small) = some [⟨.ok, []⟩] := by decide

/-- R145 from the state after V43's step 6. -/
theorem test_nrStart :
    after (fun t => (t.eValid, t.ePid, t.eBlp, t.eLast, t.woff, t.blkcnt)) (exec (.nrStart 9) full) =
      some (0, 0, 0, 0, 9, 0) := by decide

/-- V43 step 7, refused for want of room, and its repeat in the larger region. -/
theorem test_nrPush_store : after (fun t => (t.esr, t.eLast, t.blkcnt)) (exec (.nrPush 134) full) = some (2, 133, 1) ∧
    after (fun t => (t.rsps, t.ePid, t.eBlp)) (exec (.nrPush 134) room) = some ([⟨.ok, [⟨117, 0x8000⟩]⟩], 134, 0) ∧
    after (fun t => (t.woff, t.blkcnt)) (exec (.nrPush 134) room) = some (8, 2) ∧
    after (fun t => (t.mem.drop 4).map Prod.snd) (exec (.nrPush 134) room) = some [0x00, 0x75, 0x80, 0x00] := by decide

/-- V43's lists `[1, 32768]` and `[1, 32769]`: a step of `0x7FFF` follows, one of `0x8000` is out of order. -/
theorem test_nrPush_order :
    after (fun t => (t.rsps, t.eLast)) (exec (.nrPush 32768) { room with ePid := 1, eBlp := 0, eLast := 1 }) =
      some ([⟨.ok, [⟨1, 0⟩]⟩], 32768) ∧
    after (fun t => (t.rsps, t.eLast)) (exec (.nrPush 32769) { room with ePid := 1, eBlp := 0, eLast := 1 }) =
      some ([⟨.invalidOrderError, []⟩], 1) ∧
    after (fun t => (t.rsps, t.eBlp)) (exec (.nrPush 133) full) = some ([⟨.ok, []⟩], 0x8000) := by decide

/-- R149: with a block open and with none. -/
theorem test_nrFlush : after (fun t => (t.rsps, t.eValid, t.ePid, t.blkcnt)) (exec .nrFlush room) =
      some ([⟨.ok, [⟨117, 0x8000⟩]⟩], 0, 117, 2) ∧
    after (fun t => (t.rsps, t.blkcnt)) (exec .nrFlush { full with eValid := 0 }) = some ([⟨.ok, []⟩], 1) ∧
    after (fun t => (t.rsps, t.eValid)) (exec .nrFlush full) = some ([⟨.outOfBounds, []⟩], 1) := by decide

/-! ## The reference functions (V43) and the response port (V30) -/

theorem test_pack : pack [100, 116, 117] = some [⟨100, 0x8000⟩, ⟨117, 0⟩] ∧
    pack [65530, 65535, 4, 10, 11] = some [⟨65530, 0x8210⟩, ⟨11, 0⟩] ∧
    pack [5, 5, 6, 6, 40, 40] = some [⟨5, 1⟩, ⟨40, 0⟩] ∧ pack [65519, 0] = some [⟨65519, 0⟩, ⟨0, 0⟩] ∧
    pack [0, 32767, 65534] = some [⟨0, 0⟩, ⟨32767, 0⟩, ⟨65534, 0⟩] ∧ pack [1, 32769] = none ∧ pack [10, 30, 29] = none := by
  decide

theorem test_expand : expand [⟨500, 0x0100⟩, ⟨600, 3⟩] = [500, 509, 600, 601, 602] ∧
    expand [⟨65530, 0x0421⟩] = [65530, 65531, 0, 5] ∧ expand [⟨10, 1⟩, ⟨11, 0⟩] = [10, 11, 11] := by decide

theorem test_beats : (Response.mk .ok []).beats = [0x0800000000000000] ∧
    (Response.mk .ok [⟨10, 0xD555⟩]).beats = [0x0C000000000AD555] ∧
    (Response.mk .ok [⟨0, 10⟩, ⟨0, 11⟩, ⟨0, 13⟩]).beats =
      [0x040000000000000A, 0x040000000000000B, 0x0C0000000000000D] ∧
    (Response.mk .illegalCommand []).beats = [0x4800000000000000] ∧
    (Response.mk .boundaryError []).beats = [0x1800000000000000] := by decide

/-! ## Fetching: the word presented next is the one that runs, right after reset -/

theorem test_fetch_completes : ∀ op ∈ [1, 2, 3, 4, 5, 16, 17, 18, 32, 33, 48, 49, 50, 51],
    (after (fun t => t.rsps.length) (step (State.reset.withFetchWord 64 (op * 2 ^ 56)))) = some 1 := by decide

theorem test_fetch_keeps_queue : after State.inputs (step { (State.reset.withFetchWord 64 0) with
      inputs := [.command 0x3300000000000000#64, .reset] }) = some [.reset] := by decide

theorem test_illegal_word : after (fun t => (t.esr, t.rsps)) (step (small.withFetchWord 64 0x0600000000000000)) =
    some (8, [⟨.illegalCommand, []⟩]) := by decide

/-! ## Witnesses: states that meet the hypotheses of the statements -/

/-- A region of 8 bytes at 8, the cursor inside it, a block open at its widest, one block stored: bytes outside the region
are listed too. -/
def busy : State := { State.reset with
  memBytes := 64, rbase := 8, rlen := 8, byteIdx := 1, bitIdx := 3
  mem := [(7, 0x77), (8, 0x00), (9, 0x0A), (10, 0xD5), (11, 0x55), (12, 0), (13, 0), (14, 0), (15, 0), (16, 0x16)]
  eValid := 1, ePid := 65530, eBlp := 0x8000, eLast := 10, woff := 4, blkcnt := 1
  esr := 2, rsps := [⟨.outOfBounds, []⟩] }

theorem busy_region : busy.regionOk := by
  show (8 : Nat) + 8 ≤ 64
  decide

theorem busy_encoder : busy.encoderOk := by
  intro _
  decide

theorem busy_esr : busy.esrOk := by
  intro e
  cases e <;> decide

theorem busy_inv : busy.Inv where
  param := by show 1 ≤ 64 ∧ 64 ≤ 65535; decide
  mem := by unfold State.memOk; decide
  region := busy_region
  cursor := by unfold State.cursorOk; decide
  encoder := busy_encoder
  count := by unfold State.countOk; decide
  esr := busy_esr

theorem witness_EncodeOfDecode : decode 0x0207FFFF00000000#64 = .ok (.curSeek 65535 7) ∧
    canonicalWord 0x0207FFFF00000000#64 = true := by decide

theorem witness_ReservedBitsIgnored : lookupOpcode (fieldOP 0x02FE000100000000#64) = some .curSeek ∧
    0x02FE000100000000#64 &&& (0xFF00000000000000#64 ||| Mnemonic.curSeek.format.mask) =
      0x0206000100000000#64 &&& (0xFF00000000000000#64 ||| Mnemonic.curSeek.format.mask) := by decide

theorem witness_IllegalWordRaises : ({ busy with inputs := [.command 0x0600000000000000#64] } : State).inputs =
      .command 0x0600000000000000#64 :: [] ∧
    (0x0600000000000000#64).extractLsb' 56 8 ∉
      [0x01#8, 0x02, 0x03, 0x04, 0x05, 0x10, 0x11, 0x12, 0x20, 0x21, 0x30, 0x31, 0x32, 0x33] ∧
    (0x030B000000000000#64).extractLsb' 56 8 = 0x03#8 ∧
    10 < ((0x030B000000000000#64).extractLsb' 48 8).toNat := by decide

theorem witness_AssembleExactlyWhenOperandsFit : (AsmLine.mk .curSeek [65535, 7]).assemble = some (.curSeek 65535 7) ∧
    (AsmLine.mk .curSeek [65535, 8]).assemble = none ∧ (AsmLine.mk .curSeek [65535]).assemble = none := by decide

theorem witness_StepRunsDecodedCommand : (busy.withFetchWord 64 0x3300000000000000).inputs =
      .command 0x3300000000000000#64 :: busy.inputs ∧ decode 0x3300000000000000#64 = .ok .nrFlush := by decide

theorem witness_ResetEventAndIdle : ({ busy with inputs := [.reset] } : State).inputs = .reset :: [] ∧
    busy.inputs = [] := by decide

theorem witness_StepKeepsInvariants : ∃ s t : State, s.Inv ∧ s.inputs ≠ [] ∧ step s = .next t := by
  refine ⟨busy.withFetchWord 64 0x32000000000B0000, _, ?_, by decide, rfl⟩
  obtain ⟨h1, h2, h3, h4, h5, h6, h7⟩ := busy_inv
  exact ⟨h1, h2, h3, h4, h5, h6, h7⟩

theorem witness_StepNeverStops : busy.Inv := busy_inv

/-- The clause of the open block, at its largest offset. -/
theorem witness_InvariantsBoundRegisters : busy.Inv ∧ busy.eValid = 1 ∧ (busy.eLast - busy.ePid).toNat = 16 ∧
    busy.eBlp.getLsbD 15 = true := ⟨busy_inv, by decide, by decide, by decide⟩

/-- Each of the four errors: `BIT.RD 6`, `MEM.RDB 8`, `NR.PUSH 9`, `REG.RD 11`, and a word of no command. -/
theorem witness_FailureChangesOnlyEsr :
    (∃ t, execWord 0x1006000000000000#64 busy = .next t ∧ t.rsps = busy.rsps ++ [⟨.boundaryError, []⟩]) ∧
    (∃ t, execWord 0x0400000800000000#64 busy = .next t ∧ t.rsps = busy.rsps ++ [⟨.outOfBounds, []⟩]) ∧
    (∃ t, execWord 0x3200000000090000#64 busy = .next t ∧ t.rsps = busy.rsps ++ [⟨.invalidOrderError, []⟩]) ∧
    (∃ t, execWord 0x030B000000000000#64 busy = .next t ∧ t.rsps = busy.rsps ++ [⟨.illegalCommand, []⟩]) ∧
    ∃ t, execWord 0#64 busy = .next t ∧ t.rsps = busy.rsps ++ [⟨.illegalCommand, []⟩] :=
  ⟨⟨_, rfl, rfl⟩, ⟨_, rfl, rfl⟩, ⟨_, rfl, rfl⟩, ⟨_, rfl, rfl⟩, ⟨_, rfl, rfl⟩⟩

/-- Every command answers a next state with an `OK` response; `NR.PUSH` with no block, one extended, one stored. -/
theorem witness_ResponseShapes :
    (∀ i ∈ ([.rgnSet 0 64, .curSeek 8 0, .memWrb 7 1, .bitWr 5 0, .nbEnc 4 1 2, .nrStart 0, .nrPush 10,
        .nrDec 8 0] : List Instr),
      after State.rsps (execWord (encode i) busy) = some (busy.rsps ++ [⟨.ok, []⟩])) ∧
    after State.rsps (execWord (encode (.regRd 10)) busy) = some (busy.rsps ++ [⟨.ok, [⟨0, 1⟩]⟩]) ∧
    after State.rsps (execWord (encode (.memRdb 7)) busy) = some (busy.rsps ++ [⟨.ok, [⟨0, 0⟩]⟩]) ∧
    after State.rsps (execWord (encode (.bitRd 5)) busy) = some (busy.rsps ++ [⟨.ok, [⟨0, 10⟩]⟩]) ∧
    after State.rsps (execWord (encode .bitRdb) busy) = some (busy.rsps ++ [⟨.ok, [⟨0, 0⟩]⟩]) ∧
    after State.rsps (execWord (encode (.nbDec 0)) busy) = some (busy.rsps ++ [⟨.ok, [⟨10, 0xD555⟩]⟩]) ∧
    after State.rsps (execWord (encode (.nrDec 4 4)) busy) = some (busy.rsps ++ [⟨.ok, [⟨0, 0⟩]⟩]) ∧
    after State.rsps (execWord (encode (.nrPush 11)) busy) = some (busy.rsps ++ [⟨.ok, [⟨65530, 0x8000⟩]⟩]) ∧
    after State.rsps (execWord (encode .nrFlush) busy) = some (busy.rsps ++ [⟨.ok, [⟨65530, 0x8000⟩]⟩]) ∧
    after State.rsps (execWord (encode (.nrPush 11)) { busy with eValid := 0 }) = some (busy.rsps ++ [⟨.ok, []⟩]) := by
  decide

theorem witness_StatusesCommandsCanReturn : ∃ t, exec (.nrPush 9) busy = .next t ∧
    t.rsps = busy.rsps ++ [⟨.invalidOrderError, []⟩] := ⟨_, rfl, rfl⟩

theorem witness_RegisterWriters : (∃ t, exec (.nrPush 11) busy = .next t) ∧
    Instr.mnemonic (.nrPush 11) ∉ [.rgnSet] ∧
    Instr.mnemonic (.nrPush 11) ∉ [.rgnSet, .curSeek, .bitRd, .bitRdb, .bitWr] ∧
    (∃ t, exec (.bitWr 5 0) busy = .next t) ∧ Instr.mnemonic (.bitWr 5 0) ∉ [.nrStart, .nrPush, .nrFlush] ∧
    (∃ t, exec .nrFlush busy = .next t) ∧ Instr.mnemonic .nrFlush ∉ [.nrStart, .nrPush] ∧
    (∃ t, exec (.nrStart 0) busy = .next t) ∧
    Instr.mnemonic (.nrStart 0) ∉ [.memWrb, .bitWr, .nbEnc, .nrPush, .nrFlush] :=
  ⟨⟨_, rfl⟩, by decide, by decide, ⟨_, rfl⟩, by decide, ⟨_, rfl⟩, by decide, ⟨_, rfl⟩, by decide⟩

theorem witness_EsrIsStickyAndInert :
    (∃ t, execWord 0x1000000000000000#64 busy = .next t ∧ t.rsps = busy.rsps ++ [⟨.boundaryError, []⟩]) ∧
    (decode 0x3300000000000000#64 ≠ .ok (.regRd 4) ∧ ∃ t, execWord 0x3300000000000000#64 busy = .next t) ∧
    ({ busy with inputs := [.reset] } : State).inputs = .reset :: [] :=
  ⟨⟨_, rfl, rfl⟩, ⟨by decide, ⟨_, rfl⟩⟩, rfl⟩

theorem witness_EsrZeroExactlyWhenAllOk : busy.Inv ∧ busy.esr ≠ 0 := ⟨busy_inv, by decide⟩

/-- A storing command, and the bytes next to the region on either side. -/
theorem witness_BytesOutsideRegionKept : (∃ t, exec (.nrPush 11) busy = .next t) ∧ 7 < busy.rbase.toNat ∧
    busy.rbase.toNat + busy.rlen.toNat ≤ 16 := ⟨⟨_, rfl⟩, by decide, by decide⟩

/-- Another memory, equal to this one inside the region and different at both its edges. -/
theorem witness_BytesOutsideRegionUnseen : (∃ t, exec (.nbDec 4) busy = .next t) ∧
    ∀ a, busy.rbase.toNat ≤ a → a < busy.rbase.toNat + busy.rlen.toNat →
      State.byteAt { busy with mem := [(7, 0x78), (8, 0x00), (9, 0x0A), (10, 0xD5), (11, 0x55), (12, 0), (13, 0),
        (14, 0), (15, 0), (16, 0x17)] } a = busy.byteAt a := by
  refine ⟨⟨_, rfl⟩, fun a h1 h2 => ?_⟩
  have h1 : 8 ≤ a := h1
  have h2 : a < 16 := h2
  interval_cases a <;> decide

/-- `busy` with an empty region: no bytes and one byte asked of `NR.DEC`; no block open and one; a number that follows `10`
and is one too far from the base, so that it must store. -/
theorem witness_EmptyRegionReachesNoByte : ({ busy with rlen := 0 } : State).rlen = 0 ∧
    Instr.mnemonic .bitRdb ∈ [.memRdb, .memWrb, .bitRdb, .nbDec, .nbEnc] ∧
    0 < (1 : Word16).toNat + (0 : Word16).toNat ∧ 0 < (0 : Word16).toNat + (4 : Word16).toNat ∧
    ({ busy with rlen := 0, eValid := 0 } : State).eValid = 0 ∧ ({ busy with rlen := 0 } : State).eValid = 1 ∧
    1 ≤ ((11 : Word16) - busy.eLast).toNat ∧ ((11 : Word16) - busy.eLast).toNat ≤ 0x7FFF ∧
    ((11 : Word16) - busy.ePid).toNat = 17 ∧
    (∃ t, exec (.rgnSet 0 8) { busy with rlen := 0 } = .next t) ∧
    after State.rsps (exec (.nrDec 0 4) { busy with rlen := 0 }) = some (busy.rsps ++ [⟨.outOfBounds, []⟩]) ∧
    after State.rsps (exec (.nrDec 0 0) { busy with rlen := 0 }) = some (busy.rsps ++ [⟨.ok, []⟩]) ∧
    after State.rsps (exec (.nrPush 11) { busy with rlen := 0 }) = some (busy.rsps ++ [⟨.outOfBounds, []⟩]) :=
  ⟨rfl, by decide, by decide, by decide, rfl, rfl, by decide, by decide, by decide, ⟨_, rfl⟩, by decide, by decide,
    by decide⟩

theorem witness_RgnSetResult : (0x0100000000400000#64).extractLsb' 56 8 = 0x01#8 ∧
    (0 : Word16).toNat + (64 : Word16).toNat ≤ busy.memBytes ∧
    busy.memBytes < (1 : Word16).toNat + (64 : Word16).toNat := by decide

theorem witness_CurSeekResult : (0x0200000800000000#64).extractLsb' 56 8 = 0x02#8 ∧
    8 * (8 : Word16).toNat + (0 : BitVec 3).toNat ≤ 8 * busy.rlen.toNat ∧
    8 * busy.rlen.toNat < 8 * (8 : Word16).toNat + (1 : BitVec 3).toNat := by decide

theorem witness_RegRdResult : (0x030A000000000000#64).extractLsb' 56 8 = 0x03#8 ∧
    ((10 : BitVec 8) = 10 ∧ (1 : Word16) = busy.blkcnt) ∧ 10 < (11 : BitVec 8).toNat := by decide

theorem witness_MemRdbResult : (0x0400000700000000#64).extractLsb' 56 8 = 0x04#8 ∧ busy.regionOk ∧
    (7 : Word16).toNat < busy.rlen.toNat ∧ busy.rlen.toNat ≤ (8 : Word16).toNat :=
  ⟨by decide, busy_region, by decide, by decide⟩

theorem witness_MemWrbResult : (0x0500000700000001#64).extractLsb' 56 8 = 0x05#8 ∧ busy.regionOk ∧
    (7 : Word16).toNat < busy.rlen.toNat ∧ busy.rlen.toNat ≤ (8 : Word16).toNat :=
  ⟨by decide, busy_region, by decide, by decide⟩

/-- Three bits into the byte: `n = 0` and `n = 6` fail, `n = 5` is the widest; then the end of the region. -/
theorem witness_BitRdResult : (0x1005000000000000#64).extractLsb' 56 8 = 0x10#8 ∧ busy.regionOk ∧
    (0 : BitVec 8).toNat = 0 ∧ 8 < (9 : BitVec 8).toNat ∧ 8 < busy.bitIdx.toNat + (6 : BitVec 8).toNat ∧
    busy.bitIdx.toNat + (5 : BitVec 8).toNat ≤ 8 ∧ busy.byteIdx.toNat < busy.rlen.toNat ∧
    busy.rlen.toNat ≤ ({ busy with byteIdx := 8 } : State).byteIdx.toNat :=
  ⟨by decide, busy_region, by decide, by decide, by decide, by decide, by decide, by decide⟩

theorem witness_BitRdbResult : (0x1100000000000000#64).extractLsb' 56 8 = 0x11#8 ∧ busy.regionOk ∧
    busy.byteIdx.toNat < busy.rlen.toNat ∧
    busy.rlen.toNat ≤ ({ busy with byteIdx := 8, bitIdx := 0 } : State).byteIdx.toNat :=
  ⟨by decide, busy_region, by decide, by decide⟩

theorem witness_BitWrResult : (0x12050000000000FF#64).extractLsb' 56 8 = 0x12#8 ∧ busy.regionOk ∧
    (0 : BitVec 8).toNat = 0 ∧ 8 < (9 : BitVec 8).toNat ∧ 8 < busy.bitIdx.toNat + (6 : BitVec 8).toNat ∧
    busy.bitIdx.toNat + (5 : BitVec 8).toNat ≤ 8 ∧ busy.byteIdx.toNat < busy.rlen.toNat ∧
    busy.rlen.toNat ≤ ({ busy with byteIdx := 8 } : State).byteIdx.toNat :=
  ⟨by decide, busy_region, by decide, by decide, by decide, by decide, by decide, by decide⟩

theorem witness_ReadBackWrittenField : busy.regionOk ∧ 1 ≤ (5 : BitVec 8).toNat ∧
    busy.bitIdx.toNat + (5 : BitVec 8).toNat ≤ 8 ∧ busy.byteIdx.toNat < busy.rlen.toNat :=
  ⟨busy_region, by decide, by decide, by decide⟩

theorem witness_WriteBackReadField : busy.regionOk ∧ 1 ≤ (1 : BitVec 8).toNat ∧
    busy.bitIdx.toNat + (1 : BitVec 8).toNat ≤ 8 ∧ busy.byteIdx.toNat < busy.rlen.toNat :=
  ⟨busy_region, by decide, by decide, by decide⟩

theorem witness_FieldsJoinToByte : ({ busy with bitIdx := 0 } : State).regionOk ∧
    ({ busy with bitIdx := 0 } : State).bitIdx = 0 ∧
    ({ busy with bitIdx := 0 } : State).byteIdx.toNat < ({ busy with bitIdx := 0 } : State).rlen.toNat ∧
    (∀ n ∈ ([2, 1, 5] : List (BitVec 8)), 1 ≤ n.toNat) ∧
    (([2, 1, 5] : List (BitVec 8)).map BitVec.toNat).sum = 8 :=
  ⟨busy_region, by decide, by decide, by decide, by decide⟩

theorem witness_ReadAndWriteMoveAlike : (∃ t, exec (.bitRd 5) busy = .next t) ∧
    ∃ u, exec (.bitWr 5 0xFF) busy = .next u := ⟨⟨_, rfl⟩, ⟨_, rfl⟩⟩

theorem witness_NbDecResult : (0x2000000400000000#64).extractLsb' 56 8 = 0x20#8 ∧ busy.regionOk ∧
    (4 : Word16).toNat + 4 ≤ busy.rlen.toNat ∧ busy.rlen.toNat < (5 : Word16).toNat + 4 :=
  ⟨by decide, busy_region, by decide, by decide⟩

theorem witness_NbEncResult : (0x21000004000AD555#64).extractLsb' 56 8 = 0x21#8 ∧ busy.regionOk ∧
    (4 : Word16).toNat + 4 ≤ busy.rlen.toNat ∧ busy.rlen.toNat < (5 : Word16).toNat + 4 :=
  ⟨by decide, busy_region, by decide, by decide⟩

theorem witness_NackBlockRoundTrip : busy.regionOk ∧ (4 : Word16).toNat + 4 ≤ busy.rlen.toNat :=
  ⟨busy_region, by decide⟩

theorem witness_NrDecResult : (0x3000000000080000#64).extractLsb' 56 8 = 0x30#8 ∧ busy.regionOk ∧
    (8 : Word16).toNat % 4 = 0 ∧ (0 : Word16).toNat + (8 : Word16).toNat ≤ busy.rlen.toNat ∧
    (6 : Word16).toNat % 4 ≠ 0 ∧ busy.rlen.toNat < (1 : Word16).toNat + (8 : Word16).toNat :=
  ⟨by decide, busy_region, by decide, by decide, by decide, by decide⟩

theorem witness_NrDecElementCount : ∃ t, exec (.nrDec 4 4) busy = .next t ∧ t.rsps = busy.rsps ++ [⟨.ok, [⟨0, 0⟩]⟩] :=
  ⟨_, rfl, rfl⟩

theorem witness_NrStartResult : (0x3100000400000000#64).extractLsb' 56 8 = 0x31#8 := by decide

/-- No block; a repeat; steps of `0x8000` and of `0x7FFF`; offsets 16 and 17; room for the block and none. -/
theorem witness_NrPushResult : (0x32000000FFFE0000#64).extractLsb' 56 8 = 0x32#8 ∧
    ({ busy with eValid := 0 } : State).eValid = 0 ∧ (busy.eValid = 1 ∧ (10 : Word16) = busy.eLast) ∧
    0x8000 ≤ ((32778 : Word16) - busy.eLast).toNat ∧
    (1 ≤ ((32777 : Word16) - busy.eLast).toNat ∧ ((32777 : Word16) - busy.eLast).toNat ≤ 0x7FFF) ∧
    busy.encoderOk ∧ ((11 : Word16) - busy.ePid).toNat = 17 ∧
    (({ busy with eBlp := 1, eLast := 65531 } : State).encoderOk ∧ ((10 : Word16) - (65531 : Word16)).toNat = 15 ∧
      ((10 : Word16) - busy.ePid).toNat ≤ 16) ∧
    busy.woff.toNat + 4 ≤ busy.rlen.toNat ∧ busy.regionOk ∧
    ({ busy with woff := 5 } : State).rlen.toNat < ({ busy with woff := 5 } : State).woff.toNat + 4 := by
  refine ⟨by decide, by decide, by decide, by decide, by decide, busy_encoder, by decide, ⟨?_, by decide, by decide⟩,
    by decide, busy_region, by decide⟩
  intro _
  decide

theorem witness_NrFlushResult : (0x3300000000000000#64).extractLsb' 56 8 = 0x33#8 ∧
    ({ busy with eValid := 0 } : State).eValid = 0 ∧ busy.eValid = 1 ∧ busy.regionOk ∧
    busy.woff.toNat + 4 ≤ busy.rlen.toNat ∧
    ({ busy with woff := 5 } : State).rlen.toNat < ({ busy with woff := 5 } : State).woff.toNat + 4 :=
  ⟨by decide, by decide, by decide, busy_region, by decide, by decide⟩

/-- The last step that follows and the first that is out of order; neighbours in a list. -/
theorem witness_SequenceOrders : seqOrder 1 32768 = .follows ∧ seqOrder 1 32769 = .outOfOrder ∧
    seqOrder 7 7 = .repeats ∧ ascending [65535, 0, 16] = true ∧ ascending [7, 7] = false ∧
    nonDescending [7, 7] = true ∧ nonDescending [7, 6] = false := by decide

/-- A list that packs, and one with neighbours exactly `0x8000` apart. -/
theorem witness_PackIsGreedy : pack [7, 7, 23, 24] = some [⟨7, 0x8000⟩, ⟨24, 0⟩] ∧
    ([1, 32769] : List Word16)[0]? = some 1 ∧ ([1, 32769] : List Word16)[0 + 1]? = some 32769 ∧
    0x8000 ≤ ((32769 : Word16) - 1).toNat := by decide

theorem witness_EncodeRunComputesPack : busy.regionOk ∧ pack [5, 5, 6, 40] = some [⟨5, 1⟩, ⟨40, 0⟩] ∧
    (0 : Word16).toNat + 4 * [Block.mk 5 1, ⟨40, 0⟩].length ≤ busy.rlen.toNat := ⟨busy_region, by decide, by decide⟩

theorem witness_EncodeRunStopsAtDisorder : busy.regionOk ∧ pack ([10] ++ [30]) = some [⟨10, 0⟩, ⟨30, 0⟩] ∧
    (0 : Word16).toNat + 4 * [Block.mk 10 0, ⟨30, 0⟩].length ≤ busy.rlen.toNat ∧ seqOrder 30 29 = .outOfOrder :=
  ⟨busy_region, by decide, by decide, by decide⟩

theorem witness_EncodeRunStopsAtRegionEnd : busy.regionOk ∧ pack [5, 40] = some [⟨5, 0⟩, ⟨40, 0⟩] ∧
    [Block.mk 5 0, ⟨40, 0⟩] ≠ [] ∧ busy.rlen.toNat < (1 : Word16).toNat + 4 * [Block.mk 5 0, ⟨40, 0⟩].length :=
  ⟨busy_region, by decide, by decide, by decide⟩

theorem witness_ExpandOfPackAscending : ascending [65520, 0, 1, 17, 32784] = true := by decide

theorem witness_ExpandOfPackDropsRepeats : nonDescending [5, 5, 6, 6, 40, 40] = true := by decide

theorem witness_PackIsMinimal : ascending [10, 11, 26] = true ∧ pack [10, 11, 26] = some [⟨10, 0x8001⟩] ∧
    expand [⟨10, 1⟩, ⟨26, 0⟩] = [10, 11, 26] := by decide

theorem witness_PackSizeBounds : pack [7, 7, 24] = some [⟨7, 0⟩, ⟨24, 0⟩] := by decide

/-- The list goes round: three distinct numbers, four blocks. -/
theorem witness_PackAtMostOneBlockPerDistinctNumber :
    pack [0, 30000, 60000, 0] = some [⟨0, 0⟩, ⟨30000, 0⟩, ⟨60000, 0⟩, ⟨0, 0⟩] := by decide

theorem witness_PackOfExpandOnlyOnPackedRuns : ascending [10, 11, 30] = true ∧
    pack [10, 11, 30] = some [⟨10, 1⟩, ⟨30, 0⟩] := by decide

/-- No data, one element, several. -/
theorem witness_ResponseBeatLayout : (Response.mk .outOfBounds []).data = [] ∧
    (Response.mk .ok [⟨1, 2⟩]).data ≠ [] ∧
    ∃ t r, execWord 0x3000000000040000#64 busy = .next t ∧ t.rsps = busy.rsps ++ [r] ∧ 1 < r.beats.length :=
  ⟨rfl, by decide, _, _, rfl, rfl, by decide⟩

end Sys2Proof.Tests
end

/-! SUPPORT. `ESR` collects the statuses of the responses and no command but `REG.RD 4` reads it (10_state R31). -/

namespace Sys2Proof.Machine

/-! ## What a command word does to `ESR` -/

/-- No effect of a responding command writes `ESR` or a response; `respond` and `raise` alone do. -/
theorem Effect.keeps_esr_rsps {i : Instr} {s u : State} {d : List DataPair} (h : Effect i s u d) :
    u.esr = s.esr ∧ u.rsps = s.rsps := by
  cases i with
  | rgnSet | curSeek | memRdb | memWrb | nbDec | nbEnc =>
    obtain ⟨-, rfl, -⟩ := h
    exact ⟨rfl, rfl⟩
  | regRd =>
    obtain ⟨-, -, rfl, -⟩ := h
    exact ⟨rfl, rfl⟩
  | bitRd | bitRdb | nrDec =>
    obtain ⟨-, -, rfl, -⟩ := h
    exact ⟨rfl, rfl⟩
  | bitWr =>
    obtain ⟨-, -, -, rfl⟩ := h
    exact ⟨rfl, rfl⟩
  | nrStart =>
    obtain ⟨rfl, -⟩ := h
    exact ⟨rfl, rfl⟩
  | nrPush =>
    obtain ⟨-, rfl, -⟩ | ⟨-, -, rfl, -⟩ | ⟨-, -, -, rfl, -⟩ | ⟨-, -, -, -, rfl, -⟩ := h <;> exact ⟨rfl, rfl⟩
  | nrFlush =>
    obtain ⟨-, rfl, -⟩ | ⟨-, -, rfl, -⟩ := h <;> exact ⟨rfl, rfl⟩

/-- A command word that completes responds with `ESR` as it was, or raises an error on the state before it. -/
theorem execWord_cases {w : CmdWord} {s t : State} (h : execWord w s = .next t) :
    (∃ (u : State) (d : List DataPair), u.esr = s.esr ∧ u.rsps = s.rsps ∧ t = u.respond d) ∨ (∃ e, t = s.raise e) := by
  unfold execWord at h
  split at h
  · rcases exec_cases h with ⟨u, d, he, rfl⟩ | ⟨e, -, rfl⟩
    · obtain ⟨hesr, hrsps⟩ := he.keeps_esr_rsps
      exact .inl ⟨u, d, hesr, hrsps, rfl⟩
    · exact .inr ⟨e, rfl⟩
  · exact .inr ⟨.illegalCommand, by simpa [execIllegal] using h.symm⟩

/-! ## States that differ in `ESR` alone -/

/-- The state with `v` in `ESR`. -/
def State.withEsr (s : State) (v : BitVec 4) : State := { s with esr := v }

/-- What a body works out, with `v` in `ESR` of its state. -/
def Result.withEsr (r : Result) (v : BitVec 4) : Result := r.map fun p => (p.1.withEsr v, p.2)

/-- The body of a command works out the same whatever `ESR` holds, and leaves `ESR` as it was. -/
def EsrBlind (body : State → Result) : Prop :=
  ∀ (s : State) (v : BitVec 4), body (s.withEsr v) = Result.withEsr (body s) v

namespace State

variable (s : State) (v : BitVec 4)

@[simp] theorem withEsr_memBytes : (s.withEsr v).memBytes = s.memBytes := rfl
@[simp] theorem withEsr_rlen : (s.withEsr v).rlen = s.rlen := rfl
@[simp] theorem withEsr_byteIdx : (s.withEsr v).byteIdx = s.byteIdx := rfl
@[simp] theorem withEsr_bitIdx : (s.withEsr v).bitIdx = s.bitIdx := rfl
@[simp] theorem withEsr_eValid : (s.withEsr v).eValid = s.eValid := rfl
@[simp] theorem withEsr_ePid : (s.withEsr v).ePid = s.ePid := rfl
@[simp] theorem withEsr_eLast : (s.withEsr v).eLast = s.eLast := rfl
@[simp] theorem withEsr_woff : (s.withEsr v).woff = s.woff := rfl
@[simp] theorem withEsr_openedBlock : (s.withEsr v).openedBlock = s.openedBlock := rfl

theorem rgnAddr_withEsr (off n : Nat) : (s.withEsr v).rgnAddr off n = s.rgnAddr off n := rfl

theorem rgnRead_withEsr (off n : Nat) : (s.withEsr v).rgnRead off n = s.rgnRead off n := by
  have hm (a : Nat) : (s.withEsr v).memRead a n = s.memRead a n :=
    memRead_congr (s := s.withEsr v) (t := s) rfl rfl a n
  simp only [rgnRead, rgnAddr_withEsr, hm]

theorem bitCheck_withEsr (n : Nat) : (s.withEsr v).bitCheck n = s.bitCheck n := rfl

theorem readBlock_withEsr (off : Nat) : (s.withEsr v).readBlock off = s.readBlock off := by
  rw [readBlock, readBlock, rgnRead_withEsr]

theorem readBlocks_withEsr (off k : Nat) : (s.withEsr v).readBlocks off k = s.readBlocks off k := by
  induction k generalizing off with
  | zero => rfl
  | succ k ih => rw [readBlocks, readBlocks, readBlock_withEsr, ih]

theorem rgnWrite_withEsr (off n x : Nat) :
    (s.withEsr v).rgnWrite off n x = (s.rgnWrite off n x).map (·.withEsr v) := by
  rw [rgnWrite, rgnWrite, rgnAddr_withEsr]
  cases s.rgnAddr off n <;> rfl

theorem storeBlock_withEsr : (s.withEsr v).storeBlock = s.storeBlock.map (·.withEsr v) := by
  rw [storeBlock, storeBlock, withEsr_openedBlock, withEsr_woff, rgnWrite_withEsr]
  cases s.rgnWrite s.woff.toNat 4 s.openedBlock.toNat <;> rfl

/-- Of the register map, index 4 alone reads `ESR` (10_state R33). -/
theorem regValue_withEsr {idx : Nat} (h : idx ≠ 4) : (s.withEsr v).regValue idx = s.regValue idx := by
  unfold regValue
  split <;> simp_all [withEsr]

theorem pushFollowing_withEsr (sn : Word16) :
    (s.withEsr v).pushFollowing sn = Result.withEsr (s.pushFollowing sn) v := by
  simp only [pushFollowing, withEsr_ePid, withEsr_openedBlock, storeBlock_withEsr]
  split
  · rfl
  · cases s.storeBlock <;> rfl

end State

/-- The command does the same with any `v` in `ESR`: it completes too, and with a state that differs in `ESR` alone. -/
def EsrInert (command : State → Host.Outcome State Fault Refusal) : Prop :=
  ∀ (s t : State) (v : BitVec 4), command s = .next t →
    ∃ u, command (s.withEsr v) = .next u ∧ u.withEsr t.esr = t

/-- A command that ends in a body blind to `ESR` (60_exceptions R173). -/
theorem EsrBlind.inert {body : State → Result} (hb : EsrBlind body) : EsrInert fun s => s.conclude (body s) := by
  intro s t v h
  simp only [hb s v]
  rcases State.conclude_next h with ⟨u, d, hr, rfl⟩ | ⟨e, hr, rfl⟩ <;> rw [hr]
  · exact ⟨(u.withEsr v).respond d, rfl, rfl⟩
  · exact ⟨(s.withEsr v).raise e, rfl, rfl⟩

/-! ## The commands -/

theorem esrInert_rgnSet (base len : Word16) : EsrInert (exec (.rgnSet base len)) := by
  intro s t v h
  simp only [exec, execRgnSet, Host.Outcome.next.injEq] at h ⊢
  rw [State.withEsr_memBytes]
  split at h <;> subst h
  · exact ⟨(s.withEsr v).raise .outOfBounds, if_pos ‹_›, rfl⟩
  · exact ⟨((s.withEsr v).setRegion base len).respond [], if_neg ‹_›, rfl⟩

theorem esrInert_curSeek (byte : Word16) (bit : BitVec 3) : EsrInert (exec (.curSeek byte bit)) := by
  refine EsrBlind.inert fun s v => ?_
  rw [State.withEsr_rlen]
  split <;> rfl

theorem esrInert_regRd (idx : BitVec 8) (h : idx ≠ 4) : EsrInert (exec (.regRd idx)) := by
  have h4 : idx.toNat ≠ 4 := fun e => h (BitVec.eq_of_toNat_eq e)
  refine EsrBlind.inert fun s v => ?_
  rw [State.regValue_withEsr s v h4]
  cases s.regValue idx.toNat <;> rfl

theorem esrInert_memRdb (off : Word16) : EsrInert (exec (.memRdb off)) := by
  refine EsrBlind.inert fun s v => ?_
  rw [State.rgnRead_withEsr]
  cases s.rgnRead off.toNat 1 <;> rfl

theorem esrInert_memWrb (off : Word16) (val : Byte) : EsrInert (exec (.memWrb off val)) := by
  refine EsrBlind.inert fun s v => ?_
  rw [State.rgnWrite_withEsr]
  cases s.rgnWrite off.toNat 1 val.toNat <;> rfl

theorem esrInert_bitRd (n : BitVec 8) : EsrInert (exec (.bitRd n)) := by
  refine EsrBlind.inert fun s v => ?_
  rw [State.bitCheck_withEsr, State.withEsr_byteIdx, State.rgnRead_withEsr]
  cases s.bitCheck n.toNat <;> cases s.rgnRead s.byteIdx.toNat 1 <;> rfl

theorem esrInert_bitRdb : EsrInert (exec .bitRdb) := by
  refine EsrBlind.inert fun s v => ?_
  rw [State.bitCheck_withEsr, State.withEsr_byteIdx, State.rgnRead_withEsr]
  cases s.bitCheck 1 <;> cases s.rgnRead s.byteIdx.toNat 1 <;> rfl

theorem esrInert_bitWr (n : BitVec 8) (val : Byte) : EsrInert (exec (.bitWr n val)) := by
  refine EsrBlind.inert fun s v => ?_
  simp only [State.bitCheck_withEsr, State.withEsr_byteIdx, State.withEsr_bitIdx, State.rgnRead_withEsr,
    State.rgnWrite_withEsr]
  cases s.bitCheck n.toNat with
  | error => rfl
  | ok =>
    cases s.rgnRead s.byteIdx.toNat 1 with
    | error => rfl
    | ok old =>
      simp only [ok_bind]
      cases s.rgnWrite s.byteIdx.toNat 1
        (writeField (BitVec.ofNat 8 old) s.bitIdx.toNat n.toNat val).toNat <;> rfl

theorem esrInert_nbDec (off : Word16) : EsrInert (exec (.nbDec off)) := by
  refine EsrBlind.inert fun s v => ?_
  rw [State.readBlock_withEsr]
  cases s.readBlock off.toNat <;> rfl

theorem esrInert_nbEnc (off pid blp : Word16) : EsrInert (exec (.nbEnc off pid blp)) := by
  refine EsrBlind.inert fun s v => ?_
  rw [State.rgnWrite_withEsr]
  cases s.rgnWrite off.toNat 4 (Block.mk pid blp).toNat <;> rfl

theorem esrInert_nrDec (off len : Word16) : EsrInert (exec (.nrDec off len)) := by
  refine EsrBlind.inert fun s v => ?_
  rw [State.withEsr_rlen, State.readBlocks_withEsr]
  split
  · rfl
  · split
    · rfl
    · cases s.readBlocks off.toNat (len.toNat / 4) <;> rfl

theorem esrInert_nrStart (off : Word16) : EsrInert (exec (.nrStart off)) :=
  EsrBlind.inert (body := fun s => .ok (s.startRun off, [])) fun _ _ => rfl

theorem esrInert_nrPush (sn : Word16) : EsrInert (exec (.nrPush sn)) := by
  refine EsrBlind.inert fun s v => ?_
  rw [State.withEsr_eValid, State.withEsr_eLast, State.pushFollowing_withEsr]
  split
  · rfl
  · cases seqOrder s.eLast sn <;> rfl

theorem esrInert_nrFlush : EsrInert (exec .nrFlush) := by
  refine EsrBlind.inert fun s v => ?_
  rw [State.withEsr_eValid, State.storeBlock_withEsr]
  split
  · rfl
  · cases s.storeBlock <;> rfl

/-- `REG.RD 4` alone reads `ESR` (10_state R31). -/
theorem esrInert_exec {i : Instr} (hi : i ≠ .regRd 4) : EsrInert (exec i) := by
  cases i with
  | rgnSet base len => exact esrInert_rgnSet base len
  | curSeek byte bit => exact esrInert_curSeek byte bit
  | regRd idx => exact esrInert_regRd idx fun e => hi (congrArg _ e)
  | memRdb off => exact esrInert_memRdb off
  | memWrb off val => exact esrInert_memWrb off val
  | bitRd n => exact esrInert_bitRd n
  | bitRdb => exact esrInert_bitRdb
  | bitWr n val => exact esrInert_bitWr n val
  | nbDec off => exact esrInert_nbDec off
  | nbEnc off pid blp => exact esrInert_nbEnc off pid blp
  | nrDec off len => exact esrInert_nrDec off len
  | nrStart off => exact esrInert_nrStart off
  | nrPush sn => exact esrInert_nrPush sn
  | nrFlush => exact esrInert_nrFlush

/-- A word of `REG.RD 4` apart, no command word depends on `ESR`, one that spells no command included. -/
theorem esrInert_execWord {w : CmdWord} (hw : decode w ≠ .ok (.regRd 4)) : EsrInert (execWord w) := by
  unfold execWord
  cases hd : decode w with
  | ok i => exact esrInert_exec fun e => hw (e ▸ hd)
  | error e => exact EsrBlind.inert (body := fun _ => .error (.raised .illegalCommand)) fun _ _ => rfl

/-- Settles O17: the inversion of a command word gives the bits, and the bodies' blindness to `ESR` the rest. -/
theorem esrIsStickyAndInert : Obligations.EsrIsStickyAndInert := by
  refine ⟨fun w s t r h hr => ?_, fun s => ?_, fun w s t v hw h => esrInert_execWord hw s t v h,
    fun s rest h => ⟨_, step_reset h, rfl⟩, rfl⟩
  · rcases execWord_cases h with ⟨u, d, hesr, hrsps, rfl⟩ | ⟨e, rfl⟩
    · obtain rfl : ⟨.ok, d⟩ = r := by simpa [hrsps] using hr
      simp [hesr]
    · obtain rfl : ⟨e.status, []⟩ = r := by simpa using hr
      cases e <;> rfl
  · simp [exec, execRegRd, State.regValue, State.respond, valueData]

end Sys2Proof.Machine

/-! SUPPORT. The command word and the response port: what a row of the opcode table reads (30_encoding R72 to R77), the
shape of each response (R78), and its beats (R79, R80). -/

namespace Sys2Proof

/-! ## Reserved bits (R77) -/

/-- Words that agree under a mask agree on every field the mask covers. -/
theorem extractLsb'_congr_of_mask {w w' mask : CmdWord} {start len : Nat} (h : w &&& mask = w' &&& mask)
    (hm : mask.extractLsb' start len = BitVec.allOnes len) : w.extractLsb' start len = w'.extractLsb' start len := by
  have he := congrArg (BitVec.extractLsb' start len) h
  simpa only [BitVec.extractLsb'_and, hm, BitVec.and_allOnes] using he

/-- Every row's mask covers `OP` (R75). -/
theorem readMask_covers_op (m : Mnemonic) : m.readMask.extractLsb' 56 8 = BitVec.allOnes 8 := by
  cases m <;> decide

/-- A row's operands come from the bits of its mask alone (R72, R77). -/
theorem cutOperands_congr {m : Mnemonic} {w w' : CmdWord} (h : w &&& m.readMask = w' &&& m.readMask) :
    cutOperands m w = cutOperands m w' := by
  have field {start len : Nat} (hm : m.readMask.extractLsb' start len = BitVec.allOnes len) :
      w.extractLsb' start len = w'.extractLsb' start len := extractLsb'_congr_of_mask h hm
  cases m with
  | bitRdb | nrFlush => rfl
  | regRd => exact congrArg Instr.regRd (field (by decide))
  | bitRd => exact congrArg Instr.bitRd (field (by decide))
  | memRdb => exact congrArg Instr.memRdb (field (by decide))
  | nbDec => exact congrArg Instr.nbDec (field (by decide))
  | nrStart => exact congrArg Instr.nrStart (field (by decide))
  | nrPush => exact congrArg Instr.nrPush (field (by decide))
  | rgnSet => exact congrArg₂ Instr.rgnSet (field (by decide)) (field (by decide))
  | curSeek => exact congrArg₂ Instr.curSeek (field (by decide)) (field (by decide))
  | memWrb => exact congrArg₂ Instr.memWrb (field (by decide)) (field (by decide))
  | bitWr => exact congrArg₂ Instr.bitWr (field (by decide)) (field (by decide))
  | nrDec => exact congrArg₂ Instr.nrDec (field (by decide)) (field (by decide))
  | nbEnc =>
    have ha : fieldA w = fieldA w' := field (by decide)
    have hb : fieldB w = fieldB w' := field (by decide)
    have hc : fieldC w = fieldC w' := field (by decide)
    rw [cutOperands, cutOperands, ha, hb, hc]

/-- The laws of the word form hold of every command. -/
theorem Laws.WordForm.all (i : Instr) : Statement i := by
  cases i with
  | rgnSet base len => exact rgnSet base len
  | curSeek byte bit => exact curSeek byte bit
  | regRd idx => exact regRd idx
  | memRdb off => exact memRdb off
  | memWrb off val => exact memWrb off val
  | bitRd n => exact bitRd n
  | bitRdb => exact bitRdb
  | bitWr n val => exact bitWr n val
  | nbDec off => exact nbDec off
  | nbEnc off pid blp => exact nbEnc off pid blp
  | nrDec off len => exact nrDec off len
  | nrStart off => exact nrStart off
  | nrPush sn => exact nrPush sn
  | nrFlush => exact nrFlush

/-- Settles O4: the row's mask covers `OP` and each field the row cuts, and the word form has zeros outside it. -/
theorem reservedBitsIgnored : Obligations.ReservedBitsIgnored := by
  refine ⟨fun w w' m hm h => ?_, fun i => ?_⟩
  · have hop : fieldOP w = fieldOP w' := extractLsb'_congr_of_mask h (readMask_covers_op m)
    have hm' : lookupOpcode (fieldOP w') = some m := hop ▸ hm
    simp only [decode, hm, hm', cutOperands_congr h]
  · obtain ⟨-, -, -, hzero⟩ := Laws.WordForm.all i
    exact hzero

/-! ## Words that spell no command (R76) -/

theorem lookupOpcode_eq_none_iff (op : BitVec 8) : lookupOpcode op = none ↔ op ∉ opcodeTable.map Prod.fst := by
  simp only [lookupOpcode, Option.map_eq_none_iff, List.find?_eq_none, beq_iff_eq, List.mem_map, not_exists, not_and]

theorem decode_eq_undefinedOpcode_iff (w : CmdWord) :
    decode w = .error (.undefinedOpcode (fieldOP w)) ↔ fieldOP w ∉ opcodeTable.map Prod.fst := by
  rw [← lookupOpcode_eq_none_iff, decode]
  cases lookupOpcode (fieldOP w) <;> simp

theorem decode_regRd {w : CmdWord} (h : fieldOP w = 0x03#8) : decode w = .ok (.regRd (fieldN w)) := by
  rw [decode, h]
  rfl

namespace Machine

/-- The register map ends at index 10 (10_state R33). -/
theorem State.regValue_eq_none {idx : Nat} (h : 10 < idx) (s : State) : s.regValue idx = none := by
  obtain ⟨k, rfl⟩ := Nat.exists_eq_add_of_le' h
  rfl

theorem exec_regRd_illegal {idx : BitVec 8} (h : 10 < idx.toNat) (s : State) :
    exec (.regRd idx) s = .next (s.raise .illegalCommand) := by
  rw [exec, execRegRd, State.regValue_eq_none h, State.conclude_raised]

theorem execWord_undefined {w : CmdWord} (h : fieldOP w ∉ opcodeTable.map Prod.fst) (s : State) :
    execWord w s = .next (s.raise .illegalCommand) := by
  rw [execWord, (decode_eq_undefinedOpcode_iff w).2 h, execIllegal, State.conclude_raised]

theorem execWord_regRd_illegal {w : CmdWord} (hop : fieldOP w = 0x03#8) (hn : 10 < (fieldN w).toNat) (s : State) :
    execWord w s = .next (s.raise .illegalCommand) := by
  rw [execWord, decode_regRd hop]
  exact exec_regRd_illegal hn s

/-- Settles O5: both kinds of word raise `IllegalCommand` on the state with the event taken. -/
theorem illegalWordRaises : Obligations.IllegalWordRaises := by
  refine ⟨fun w => (decode_eq_undefinedOpcode_iff w).symm, fun s w rest hin hbad => ?_⟩
  have hraise : execWord w s.popEvent = .next (s.popEvent.raise .illegalCommand) := by
    rcases hbad with hop | ⟨hop, hn⟩
    · exact execWord_undefined hop _
    · exact execWord_regRd_illegal hop hn _
  rw [step_command hin, hraise, State.raise, State.popEvent, hin]
  rfl

/-! ## The shape of a response (R78) -/

/-- A command word that completes had its command's effect, or raised an error on the state before it. -/
theorem execWord_effect_cases {w : CmdWord} {s t : State} (h : execWord w s = .next t) :
    (∃ i u d, decode w = .ok i ∧ Effect i s u d ∧ t = u.respond d) ∨ (∃ e, t = s.raise e) := by
  unfold execWord at h
  split at h
  case h_1 i hi =>
    rcases exec_cases h with ⟨u, d, he, rfl⟩ | ⟨e, -, rfl⟩
    · exact .inl ⟨i, u, d, hi, he, rfl⟩
    · exact .inr ⟨e, rfl⟩
  case h_2 => exact .inr ⟨.illegalCommand, by simpa [execIllegal] using h.symm⟩

/-- The blocks `NR.DEC` expands, byte by byte (43_nack_run R141). -/
theorem Effect.nrDec_data {off len : Word16} {s u : State} {d : List DataPair} (h : Effect (.nrDec off len) s u d) :
    d = (expand ((List.range (len.toNat / 4)).map fun k =>
      let a := s.rbase.toNat + off.toNat + 4 * k
      ⟨s.byteAt a ++ s.byteAt (a + 1), s.byteAt (a + 2) ++ s.byteAt (a + 3)⟩)).map valueData := by
  obtain ⟨-, -, -, rfl⟩ := h
  simp only [State.blockAt, Nat.add_assoc]

/-- Settles O14: the inversion of a command word, and the data of each command's effect. -/
theorem responseShapes : Obligations.ResponseShapes := by
  intro w s t h
  rcases execWord_effect_cases h with ⟨i, u, d, hi, he, rfl⟩ | ⟨e, rfl⟩
  · obtain ⟨-, hrsps⟩ := he.keeps_esr_rsps
    refine ⟨⟨.ok, d⟩, by simp [hrsps], fun hne => absurd rfl hne, fun _ => ⟨i, hi, ?_⟩⟩
    cases i with
    | rgnSet | curSeek | memWrb | nbEnc =>
      obtain ⟨-, -, hd⟩ := he
      exact hd
    | bitWr =>
      obtain ⟨-, -, hd, -⟩ := he
      exact hd
    | nrStart =>
      obtain ⟨-, hd⟩ := he
      exact hd
    | regRd =>
      obtain ⟨v, -, -, hd⟩ := he
      exact ⟨v, hd⟩
    | memRdb =>
      obtain ⟨-, -, hd⟩ := he
      exact ⟨_, hd⟩
    | bitRd | bitRdb =>
      obtain ⟨-, -, -, hd⟩ := he
      exact ⟨_, hd⟩
    | nbDec =>
      obtain ⟨-, -, hd⟩ := he
      exact ⟨_, _, hd⟩
    | nrPush =>
      obtain ⟨-, rfl, hd⟩ | ⟨-, -, rfl, hd⟩ | ⟨-, -, -, rfl, hd⟩ | ⟨-, -, -, -, rfl, hd⟩ := he
      · exact .inl ⟨hd, rfl, rfl⟩
      · exact .inl ⟨hd, rfl, rfl⟩
      · exact .inl ⟨hd, rfl, rfl⟩
      · exact .inr ⟨hd, rfl⟩
    | nrFlush =>
      obtain ⟨-, rfl, hd⟩ | ⟨-, -, rfl, hd⟩ := he
      · exact .inl ⟨hd, rfl, rfl⟩
      · exact .inr ⟨hd, rfl⟩
    | nrDec => exact he.nrDec_data
  · refine ⟨⟨e.status, []⟩, rfl, fun _ => rfl, fun hok => ?_⟩
    cases e <;> cases hok

/-! ## The beats of a response (R79, R80) -/

/-- Where each part of a beat stands. -/
theorem beatWord_toNat (st : Status) (last dv : Bit) (d : DataPair) :
    (beatWord st last dv d).toNat =
      st.code.toNat * 2 ^ 60 + last.toNat * 2 ^ 59 + dv.toNat * 2 ^ 58 + d.d1.toNat * 2 ^ 16 + d.d0.toNat := by
  have happend {m n : Nat} (x : BitVec m) (y : BitVec n) : (x ++ y).toNat = x.toNat * 2 ^ n + y.toNat := by
    rw [BitVec.toNat_append, ← Nat.shiftLeft_add_eq_or_of_lt y.isLt, Nat.shiftLeft_eq]
  simp only [beatWord, happend, BitVec.toNat_ofNat]
  omega

theorem dataBeats_length (ds : List DataPair) : (dataBeats ds).length = ds.length := by
  induction ds using dataBeats.induct with
  | case1 => rfl
  | case2 d => rfl
  | case3 d e rest ih => simpa [dataBeats] using ih

/-- One beat an element, in order, `LAST` on the final one only. -/
theorem dataBeats_getElem? (ds : List DataPair) (j : Nat) :
    (dataBeats ds)[j]? = ds[j]?.map (beatWord .ok (if j + 1 = ds.length then 1 else 0) 1) := by
  induction ds using dataBeats.induct generalizing j with
  | case1 => rfl
  | case2 d => cases j <;> simp [dataBeats]
  | case3 d e rest ih =>
    cases j with
    | zero => simp [dataBeats]
    | succ j => simpa [dataBeats] using ih j

namespace Response

theorem beats_of_no_data {r : Response} (h : r.data = []) : r.beats = [beatWord r.status 1 0 ⟨0, 0⟩] := by
  rw [beats, h]

theorem beats_of_data {r : Response} (h : r.data ≠ []) : r.beats = dataBeats r.data := by
  unfold beats
  split
  · contradiction
  · rename_i heq
    rw [heq]

/-- A response with at most one element is one beat. -/
theorem one_lt_data_length {r : Response} (h : 1 < r.beats.length) : 1 < r.data.length := by
  by_cases hd : r.data = []
  · simp [beats_of_no_data hd] at h
  · rwa [beats_of_data hd, dataBeats_length] at h

end Response

/-- Of all commands `NR.DEC` alone returns more than one element (R78). -/
theorem nrDec_of_one_lt_data_length {w : CmdWord} {s t : State} {r : Response} (h : execWord w s = .next t)
    (hr : t.rsps = s.rsps ++ [r]) (hlen : 1 < r.data.length) : ∃ off len, decode w = .ok (.nrDec off len) := by
  obtain ⟨r', hr', hfail, hok⟩ := responseShapes w s t h
  obtain rfl : r' = r := by simpa [hr] using hr'.symm
  by_cases hst : r'.status = .ok
  case neg => simp [hfail hst] at hlen
  obtain ⟨i, hi, hshape⟩ := hok hst
  cases i with
  | nrDec off len => exact ⟨off, len, hi⟩
  | rgnSet | curSeek | memWrb | bitWr | nbEnc | nrStart => simp [show r'.data = [] from hshape] at hlen
  | regRd | memRdb | bitRd | bitRdb =>
    obtain ⟨v, hd⟩ := hshape
    simp [hd] at hlen
  | nbDec =>
    obtain ⟨p, m, hd⟩ := hshape
    simp [hd] at hlen
  | nrPush | nrFlush => obtain ⟨hd, -⟩ | ⟨hd, -⟩ := hshape <;> simp [hd] at hlen

/-- Settles O54: the value of one beat, the beats of a response element by element, and the shapes of R78. -/
theorem responseBeatLayout : Obligations.ResponseBeatLayout := by
  refine ⟨by decide, fun e => by cases e <;> rfl, fun r hd => ?_, fun r hd => ⟨?_, fun j d hj => ?_⟩,
    fun w s t r h hr hlen => nrDec_of_one_lt_data_length h hr (Response.one_lt_data_length hlen)⟩
  · exact ⟨_, Response.beats_of_no_data hd, by simp [beatWord_toNat]⟩
  · rw [Response.beats_of_data hd, dataBeats_length]
  · rw [Response.beats_of_data hd, dataBeats_getElem?, hj]
    refine ⟨_, rfl, ?_⟩
    rw [beatWord_toNat]
    split <;> simp [Status.code]

end Machine

end Sys2Proof

/-! SUPPORT. Region and management commands (40_region_and_management R90 to R95): the two outcomes of each, and the
statements about them. -/

namespace Sys2Proof

/-- A word decodes to the row its `OP` selects, with the operands that row cuts (30_encoding R74, R75). -/
theorem decode_of_opcode {w : CmdWord} {op : BitVec 8} {m : Mnemonic} (hop : fieldOP w = op)
    (hm : lookupOpcode op = some m) : decode w = .ok (cutOperands m w) := by
  rw [decode, hop, hm]

namespace Machine

/-! ## One byte of the memory -/

/-- A one-byte store changes the byte at its address alone. -/
theorem State.byteAt_memWrite_one (s : State) (a : Nat) (v : Byte) (b : Nat) :
    (s.memWrite a 1 v.toNat).byteAt b = if b = a then v else s.byteAt b := by
  by_cases hb : b = a
  · subst hb
    simp [byteAt_memWrite]
  · rw [if_neg hb, byteAt_memWrite_of_outside (by omega)]

/-! ## What a command responds, and when it raises -/

theorem exec_rgnSet_inBounds {s : State} {base len : Word16} (h : base.toNat + len.toNat ≤ s.memBytes) :
    exec (.rgnSet base len) s = .next ((s.setRegion base len).respond []) := by
  rw [exec, execRgnSet, if_neg (by omega)]

theorem exec_rgnSet_outOfBounds {s : State} {base len : Word16} (h : s.memBytes < base.toNat + len.toNat) :
    exec (.rgnSet base len) s = .next (s.raise .outOfBounds) := by
  rw [exec, execRgnSet, if_pos h]

theorem exec_curSeek_inBounds {s : State} {byte : Word16} {bit : BitVec 3}
    (h : 8 * byte.toNat + bit.toNat ≤ 8 * s.rlen.toNat) :
    exec (.curSeek byte bit) s = .next ((s.setCursor byte bit).respond []) := by
  rw [exec, execCurSeek, if_neg (by omega), State.conclude_ok]

theorem exec_curSeek_outOfBounds {s : State} {byte : Word16} {bit : BitVec 3}
    (h : 8 * s.rlen.toNat < 8 * byte.toNat + bit.toNat) :
    exec (.curSeek byte bit) s = .next (s.raise .outOfBounds) := by
  rw [exec, execCurSeek, if_pos h, State.conclude_raised]

/-- `exec_regRd_illegal` is the other outcome. -/
theorem exec_regRd_of_regValue {s : State} {idx : BitVec 8} {v : Word16} (h : s.regValue idx.toNat = some v) :
    exec (.regRd idx) s = .next (s.respond [valueData v]) := by
  rw [exec, execRegRd, h, State.conclude_ok]

theorem exec_memRdb_inBounds {s : State} {off : Word16} (hr : s.regionOk) (h : off.toNat < s.rlen.toNat) :
    exec (.memRdb off) s =
      .next (s.respond [valueData ((s.byteAt (s.rbase.toNat + off.toNat)).zeroExtend 16)]) := by
  rw [exec, execMemRdb, State.rgnRead_inBounds hr h, State.memRead_one, ok_bind, BitVec.ofNat_toNat,
    State.conclude_ok]

theorem exec_memRdb_outOfBounds {s : State} {off : Word16} (h : s.rlen.toNat ≤ off.toNat) :
    exec (.memRdb off) s = .next (s.raise .outOfBounds) := by
  rw [exec, execMemRdb, State.rgnRead_outOfBounds (by omega), error_bind, State.conclude_raised]

theorem exec_memWrb_inBounds {s : State} {off : Word16} {val : Byte} (hr : s.regionOk)
    (h : off.toNat < s.rlen.toNat) :
    exec (.memWrb off val) s = .next ((s.memWrite (s.rbase.toNat + off.toNat) 1 val.toNat).respond []) := by
  rw [exec, execMemWrb, State.rgnWrite_inBounds hr h, ok_bind, State.conclude_ok]

theorem exec_memWrb_outOfBounds {s : State} {off : Word16} {val : Byte} (h : s.rlen.toNat ≤ off.toNat) :
    exec (.memWrb off val) s = .next (s.raise .outOfBounds) := by
  rw [exec, execMemWrb, State.rgnWrite_outOfBounds (by omega), error_bind, State.conclude_raised]

/-! ## The statements -/

/-- Settles O26: the command is a one-byte store at `RBASE + off`, or raises `OutOfBounds`. -/
theorem memWrbResult : Obligations.MemWrbResult := by
  refine ⟨fun _ h => decode_of_opcode (m := .memWrb) h rfl, fun s off val hr =>
    ⟨fun h => ⟨_, exec_memWrb_inBounds hr h, rfl, fun a => ?_⟩, exec_memWrb_outOfBounds⟩⟩
  rw [State.byteAt_respond, State.byteAt_memWrite_one]

/-- Settles O22: the two outcomes of the test `base + len > MEM_BYTES`. -/
theorem rgnSetResult : Obligations.RgnSetResult :=
  ⟨fun _ h => decode_of_opcode (m := .rgnSet) h rfl, fun _ _ _ =>
    ⟨exec_rgnSet_inBounds, exec_rgnSet_outOfBounds⟩⟩

/-- Settles O23: the two outcomes of the test `8*byte + bit > 8*RLEN`. -/
theorem curSeekResult : Obligations.CurSeekResult :=
  ⟨fun _ h => decode_of_opcode (m := .curSeek) h rfl, fun _ _ _ =>
    ⟨exec_curSeek_inBounds, exec_curSeek_outOfBounds⟩⟩

/-- Settles O24: the eleven rows of the register map, and its end (10_state R33). -/
theorem regRdResult : Obligations.RegRdResult := by
  refine ⟨fun _ h => decode_regRd h, fun s =>
    ⟨fun idx v hrow => exec_regRd_of_regValue ?_, fun _ h => exec_regRd_illegal h s⟩⟩
  simp only [BitVec.ofNat_toNat] at hrow
  obtain ⟨rfl, rfl⟩ | ⟨rfl, rfl⟩ | ⟨rfl, rfl⟩ | ⟨rfl, rfl⟩ | ⟨rfl, rfl⟩ | ⟨rfl, rfl⟩ | ⟨rfl, rfl⟩ | ⟨rfl, rfl⟩ |
    ⟨rfl, rfl⟩ | ⟨rfl, rfl⟩ | ⟨rfl, rfl⟩ := hrow <;> rfl

/-- Settles O25: the command reads the byte at `RBASE + off`, or raises `OutOfBounds`. -/
theorem memRdbResult : Obligations.MemRdbResult :=
  ⟨fun _ h => decode_of_opcode (m := .memRdb) h rfl, fun _ _ hr =>
    ⟨exec_memRdb_inBounds hr, exec_memRdb_outOfBounds⟩⟩

end Machine

end Sys2Proof

/-! SUPPORT. Bit cursor commands (41_bit_cursor R110 to R114): the outcomes of each, and the statements about them. -/

namespace Sys2Proof.Machine

/-! ## The admission test, by its outcome -/

namespace State

theorem bitCheck_boundaryError {s : State} {n : Nat} (h : n = 0 ∨ 8 < n ∨ 8 < s.bitIdx.toNat + n) :
    s.bitCheck n = .error (.raised .boundaryError) := by
  rcases s.bitCheck_cases n with ⟨-, e⟩ | ⟨h1, h2, -, -⟩ | ⟨h1, h2, -, -⟩
  · exact e
  · omega
  · omega

theorem bitCheck_outOfBounds {s : State} {n : Nat} (h1 : 1 ≤ n) (h2 : s.bitIdx.toNat + n ≤ 8)
    (h3 : s.rlen.toNat ≤ s.byteIdx.toNat) : s.bitCheck n = .error (.raised .outOfBounds) := by
  rcases s.bitCheck_cases n with ⟨h', -⟩ | ⟨-, -, -, e⟩ | ⟨-, -, h', -⟩
  · omega
  · exact e
  · omega

theorem admits.bitCheck {s : State} {n : Nat} (h : s.admits n) : s.bitCheck n = .ok () := by
  obtain ⟨h1, h2, h3⟩ := h
  rcases s.bitCheck_cases n with ⟨h', -⟩ | ⟨-, -, h', -⟩ | ⟨-, -, -, e⟩
  · omega
  · omega
  · exact e

/-- An admitted access advances within the byte or onto the next: `BYTE_IDX < RLEN` leaves room for the increment. -/
theorem admits.advance {s : State} {n : Nat} (h : s.admits n) :
    s.advance n =
      s.setCursor (if s.bitIdx.toNat + n = 8 then s.byteIdx + 1 else s.byteIdx)
        (if s.bitIdx.toNat + n = 8 then 0 else BitVec.ofNat 3 (s.bitIdx.toNat + n)) := by
  obtain ⟨-, h2, h3⟩ := h
  have hlen := s.rlen.isLt
  exact s.advance_eq h2 (by omega)

/-- One bit always fits the byte, so only the end of the region can refuse it (41_bit_cursor R112). -/
theorem admits_one {s : State} (h : s.byteIdx.toNat < s.rlen.toNat) : s.admits 1 :=
  ⟨le_rfl, s.bitIdx.isLt, h⟩

/-- After one bit, `BIT_IDX` moves on modulo 8, and `BYTE_IDX` moves on exactly when it wraps. -/
theorem advance_one {s : State} (h : s.byteIdx.toNat < s.rlen.toNat) :
    s.advance 1 = s.setCursor (if s.bitIdx.toNat = 7 then s.byteIdx + 1 else s.byteIdx) (s.bitIdx + 1) := by
  have hnext : BitVec.ofNat 3 (s.bitIdx.toNat + 1) = s.bitIdx + 1 := by simp [BitVec.ofNat_add]
  rw [(admits_one h).advance, ← hnext]
  by_cases hlast : s.bitIdx.toNat = 7
  · simp [hlast]
  · simp [hlast]

end State

/-! ## A field of one bit -/

/-- Reading one bit isolates it: the shift and mask of `BIT.RDB` are those of `BIT.RD 1`. -/
theorem readField_one (b : Byte) (k : Nat) : readField b k 1 = (b >>> (7 - k)) &&& 1#8 := by
  rw [readField, fieldShift, show 8 - k - 1 = 7 - k by omega]
  rfl

theorem ushiftRight_and_one (b : Byte) (i : Nat) : (b >>> i) &&& 1#8 = if b.getLsbD i then 1 else 0 := by
  rw [BitVec.and_one_eq_setWidth_ofBool_getLsbD, BitVec.getLsbD_ushiftRight, Nat.add_zero]
  cases b.getLsbD i <;> rfl

/-! ## What a command responds, and when it raises -/

theorem exec_bitRd_boundaryError {s : State} {n : BitVec 8}
    (h : n.toNat = 0 ∨ 8 < n.toNat ∨ 8 < s.bitIdx.toNat + n.toNat) :
    exec (.bitRd n) s = .next (s.raise .boundaryError) := by
  rw [exec, execBitRd, State.bitCheck_boundaryError h, error_bind, State.conclude_raised]

theorem exec_bitRd_outOfBounds {s : State} {n : BitVec 8} (h1 : 1 ≤ n.toNat)
    (h2 : s.bitIdx.toNat + n.toNat ≤ 8) (h3 : s.rlen.toNat ≤ s.byteIdx.toNat) :
    exec (.bitRd n) s = .next (s.raise .outOfBounds) := by
  rw [exec, execBitRd, State.bitCheck_outOfBounds h1 h2 h3, error_bind, State.conclude_raised]

theorem exec_bitRd_admitted {s : State} {n : BitVec 8} (hr : s.regionOk) (h : s.admits n.toNat) :
    exec (.bitRd n) s = .next ((s.advance n.toNat).respond [valueData ((readField
      (s.byteAt (s.rbase.toNat + s.byteIdx.toNat)) s.bitIdx.toNat n.toNat).zeroExtend 16)]) := by
  have ⟨_, _, hlt⟩ := h
  rw [exec, execBitRd, h.bitCheck, ok_bind, State.rgnRead_inBounds hr hlt, State.memRead_one, ok_bind,
    BitVec.ofNat_toNat, BitVec.setWidth_eq, State.conclude_ok]

/-- The two commands differ in how they write the value alone, whatever the byte read. -/
theorem exec_bitRdb (s : State) : exec .bitRdb s = exec (.bitRd 1) s := by
  have hvalue (b : Byte) : (if (b >>> (7 - s.bitIdx.toNat)) &&& 1#8 ≠ 0 then 1 else 0 : Word16) =
      (readField b s.bitIdx.toNat 1).zeroExtend 16 := by
    rw [readField_one, ushiftRight_and_one]
    cases b.getLsbD (7 - s.bitIdx.toNat) <;> rfl
  rw [exec, exec, execBitRdb, execBitRd, show (1 : BitVec 8).toNat = 1 from rfl]
  simp only [hvalue]

theorem exec_bitWr_boundaryError {s : State} {n : BitVec 8} {val : Byte}
    (h : n.toNat = 0 ∨ 8 < n.toNat ∨ 8 < s.bitIdx.toNat + n.toNat) :
    exec (.bitWr n val) s = .next (s.raise .boundaryError) := by
  rw [exec, execBitWr, State.bitCheck_boundaryError h, error_bind, State.conclude_raised]

theorem exec_bitWr_outOfBounds {s : State} {n : BitVec 8} {val : Byte} (h1 : 1 ≤ n.toNat)
    (h2 : s.bitIdx.toNat + n.toNat ≤ 8) (h3 : s.rlen.toNat ≤ s.byteIdx.toNat) :
    exec (.bitWr n val) s = .next (s.raise .outOfBounds) := by
  rw [exec, execBitWr, State.bitCheck_outOfBounds h1 h2 h3, error_bind, State.conclude_raised]

theorem exec_bitWr_admitted {s : State} {n : BitVec 8} {val : Byte} (hr : s.regionOk)
    (h : s.admits n.toNat) :
    exec (.bitWr n val) s = .next (((s.memWrite (s.rbase.toNat + s.byteIdx.toNat) 1 (writeField
      (s.byteAt (s.rbase.toNat + s.byteIdx.toNat)) s.bitIdx.toNat n.toNat val).toNat).advance n.toNat).respond
        []) := by
  have ⟨_, _, hlt⟩ := h
  rw [exec, execBitWr, h.bitCheck, ok_bind, State.rgnRead_inBounds hr hlt, State.memRead_one, ok_bind,
    BitVec.ofNat_toNat, BitVec.setWidth_eq, State.rgnWrite_inBounds hr hlt, ok_bind, State.conclude_ok]

/-! ## The statements -/

/-- Settles O27: the outcomes of `BitCheck(n)`, and the admitted read's value and advance. -/
theorem bitRdResult : Obligations.BitRdResult := by
  refine ⟨fun _ h => decode_of_opcode (m := .bitRd) h rfl, fun s n hr =>
    ⟨exec_bitRd_boundaryError, exec_bitRd_outOfBounds, fun h1 h2 h3 => ?_⟩⟩
  have ha : s.admits n.toNat := ⟨h1, h2, h3⟩
  rw [exec_bitRd_admitted hr ha, ha.advance, ← readField_toNat _ _ _ h2, BitVec.ofNat_toNat]
  rfl

/-- Settles O28: `BIT.RDB` is `BIT.RD 1`, whose one-bit field is the bit `7 - BIT_IDX`. -/
theorem bitRdbResult : Obligations.BitRdbResult := by
  refine ⟨fun _ h => decode_of_opcode (m := .bitRdb) h rfl, exec_bitRdb, fun s hr =>
    ⟨fun h => ?_, fun h => ?_⟩⟩
  · rw [exec_bitRdb, exec_bitRd_outOfBounds (n := 1) le_rfl s.bitIdx.isLt h]
    rfl
  · rw [exec_bitRdb, exec_bitRd_admitted (n := 1) hr (State.admits_one h), show (1 : BitVec 8).toNat = 1 from rfl,
      State.advance_one h, readField_one, ushiftRight_and_one]
    cases (s.byteAt (s.rbase.toNat + s.byteIdx.toNat)).getLsbD (7 - s.bitIdx.toNat) <;> rfl

/-- Settles O29: the outcomes of `BitCheck(n)`; an admitted write stores one byte, whose bits
`writeField_getLsbD` gives. -/
theorem bitWrResult : Obligations.BitWrResult := by
  refine ⟨fun _ h => decode_of_opcode (m := .bitWr) h rfl, fun s n val hr =>
    ⟨exec_bitWr_boundaryError, exec_bitWr_outOfBounds, fun h1 h2 h3 => ?_⟩⟩
  have ha : s.admits n.toNat := ⟨h1, h2, h3⟩
  refine ⟨_, exec_bitWr_admitted hr ha, ?_, fun a hne => ?_, fun j hj => ?_⟩
  · rw [State.admits.advance (s := s.memWrite _ _ _) ha]
    rfl
  · rw [State.byteAt_respond, State.byteAt_advance, State.byteAt_memWrite_one, if_neg hne]
  · rw [State.byteAt_respond, State.byteAt_advance, State.byteAt_memWrite_one, if_pos rfl,
      writeField_getLsbD _ _ _ _ _ h2 hj]

end Sys2Proof.Machine

/-! SUPPORT. Generic NACK block commands (42_nack_block R131, R132): the two outcomes of each, and the statements about
them. -/

namespace Sys2Proof.Machine

/-! ## What a command responds, and when it raises -/

theorem exec_nbDec_inBounds {s : State} {off : Word16} (hr : s.regionOk) (h : off.toNat + 4 ≤ s.rlen.toNat) :
    exec (.nbDec off) s =
      .next (s.respond [(Block.ofNat (s.memRead (s.rbase.toNat + off.toNat) 4)).toData]) := by
  rw [exec, execNbDec, State.readBlock_inBounds hr h, ok_bind, State.conclude_ok]

theorem exec_nbDec_outOfBounds {s : State} {off : Word16} (h : s.rlen.toNat < off.toNat + 4) :
    exec (.nbDec off) s = .next (s.raise .outOfBounds) := by
  rw [exec, execNbDec, State.readBlock_outOfBounds h, error_bind, State.conclude_raised]

theorem exec_nbEnc_inBounds {s : State} {off pid blp : Word16} (hr : s.regionOk)
    (h : off.toNat + 4 ≤ s.rlen.toNat) :
    exec (.nbEnc off pid blp) s =
      .next ((s.memWrite (s.rbase.toNat + off.toNat) 4 (Block.mk pid blp).toNat).respond []) := by
  rw [exec, execNbEnc, State.rgnWrite_inBounds hr h, ok_bind, State.conclude_ok]

theorem exec_nbEnc_outOfBounds {s : State} {off pid blp : Word16} (h : s.rlen.toNat < off.toNat + 4) :
    exec (.nbEnc off pid blp) s = .next (s.raise .outOfBounds) := by
  rw [exec, execNbEnc, State.rgnWrite_outOfBounds h, error_bind, State.conclude_raised]

/-! ## The statements -/

/-- Settles O34: the command reads the block at `RBASE + off`, whose halves `State.blockAt` gives byte by byte, or raises
`OutOfBounds`. -/
theorem nbDecResult : Obligations.NbDecResult := by
  refine ⟨fun _ h => decode_of_opcode (m := .nbDec) h rfl, fun s off hr =>
    ⟨fun h => ?_, exec_nbDec_outOfBounds⟩⟩
  rw [exec_nbDec_inBounds hr h, State.blockAt]
  rfl

/-- Settles O35: the command stores the block at `RBASE + off`, every byte after which `State.byteAt_storeBlock` gives, or
raises `OutOfBounds`. -/
theorem nbEncResult : Obligations.NbEncResult := by
  refine ⟨fun _ h => decode_of_opcode (m := .nbEnc) h rfl, fun s off pid blp hr =>
    ⟨fun h => ⟨_, exec_nbEnc_inBounds hr h, rfl, fun a => ?_⟩, exec_nbEnc_outOfBounds⟩⟩
  rw [State.byteAt_respond, State.byteAt_storeBlock]

end Sys2Proof.Machine

/-! SUPPORT. NACK run commands (43_nack_run R140 to R150): the outcomes of each, the list orders and `Pack` in terms of
neighbours, and the statements about them. -/

namespace Sys2Proof.Machine

/-! ## Expansion (R140) -/

/-- The set bits in ascending order, then the number each stands for. -/
theorem expandBlock_eq_map_filter (b : Block) :
    expandBlock b = b.pid :: ((List.range 16).filter fun i => b.blp.getLsbD i).map
      fun i => seqAdd b.pid (BitVec.ofNat 16 (i + 1)) := by
  rw [expandBlock, ← List.filterMap_eq_map, List.filterMap_filter]
  rfl

theorem length_expandBlock (b : Block) :
    (expandBlock b).length = 1 + ((List.range 16).filter fun i => b.blp.getLsbD i).length := by
  rw [expandBlock_eq_map_filter, List.length_cons, List.length_map, Nat.add_comm]

/-- Settles O37: a mask bit is a binary digit of the mask's value, and `+16` is addition modulo 2^16. -/
theorem expandResult : Obligations.ExpandResult := by
  refine ⟨fun b => ?_, rfl, fun _ _ => rfl, length_expandBlock⟩
  have hbit (i : Nat) : b.blp.getLsbD i = decide (b.blp.toNat / 2 ^ i % 2 = 1) :=
    Nat.testBit_eq_decide_div_mod_eq
  have hnum (i : Nat) : seqAdd b.pid (BitVec.ofNat 16 (i + 1)) = BitVec.ofNat 16 (b.pid.toNat + (i + 1)) := by
    simp [seqAdd, BitVec.ofNat_add]
  simp only [expandBlock_eq_map_filter, hbit, hnum]

/-! ## What `NR.DEC` and `NR.START` respond, and when they raise -/

theorem exec_nrDec_inBounds {s : State} {off len : Word16} (hr : s.regionOk) (h4 : len.toNat % 4 = 0)
    (h : off.toNat + len.toNat ≤ s.rlen.toNat) :
    exec (.nrDec off len) s = .next (s.respond ((expand ((List.range (len.toNat / 4)).map fun j =>
      Block.ofNat (s.memRead (s.rbase.toNat + (off.toNat + 4 * j)) 4))).map valueData)) := by
  rw [exec, execNrDec, if_neg (by omega), if_neg (by omega), State.readBlocks_inBounds hr (by omega), ok_bind,
    State.conclude_ok]

theorem exec_nrDec_outOfBounds {s : State} {off len : Word16}
    (h : len.toNat % 4 ≠ 0 ∨ s.rlen.toNat < off.toNat + len.toNat) :
    exec (.nrDec off len) s = .next (s.raise .outOfBounds) := by
  rw [exec, execNrDec]
  split
  · rw [State.conclude_raised]
  · rw [if_pos (by omega), State.conclude_raised]

theorem exec_nrStart (off : Word16) (s : State) :
    exec (.nrStart off) s = .next ((s.startRun off).respond []) := rfl

/-- Settles O38: the command expands the blocks at `RBASE + off`, whose halves `State.blockAt` gives byte by byte, or
raises `OutOfBounds`. -/
theorem nrDecResult : Obligations.NrDecResult := by
  refine ⟨fun _ h => decode_of_opcode (m := .nrDec) h rfl, fun s off len hr =>
    ⟨fun h4 h => ?_, exec_nrDec_outOfBounds⟩⟩
  rw [exec_nrDec_inBounds hr h4 h]
  simp only [State.blockAt, Nat.add_assoc]
  rfl

/-- Settles O40: the command has the one outcome. -/
theorem nrStartResult : Obligations.NrStartResult :=
  ⟨fun _ h => decode_of_opcode (m := .nrStart) h rfl, fun s off => exec_nrStart off s⟩

/-! ## The state after `StoreBlock()` (R148) -/

namespace State

/-- A store changes the memory and the two counters alone. -/
theorem stored_eq (s : State) : s.stored = { s with
    mem := s.stored.mem, woff := BitVec.ofNat 16 (s.woff.toNat + 4), blkcnt := s.blkcnt + 1 } := by
  have hwoff : BitVec.ofNat 16 (s.woff.toNat + 4) = s.woff + 4 := by simp [BitVec.ofNat_add]
  rw [hwoff]
  rfl

/-- Every byte after a store of the open block. -/
theorem byteAt_stored (s : State) (a : Nat) :
    s.stored.byteAt a =
      if a = s.rbase.toNat + s.woff.toNat then s.ePid.extractLsb' 8 8
      else if a = s.rbase.toNat + s.woff.toNat + 1 then s.ePid.extractLsb' 0 8
      else if a = s.rbase.toNat + s.woff.toNat + 2 then s.eBlp.extractLsb' 8 8
      else if a = s.rbase.toNat + s.woff.toNat + 3 then s.eBlp.extractLsb' 0 8
      else s.byteAt a := by
  rw [stored, byteAt_countBlock, byteAt_storeBlock]
  rfl

theorem storeBlock_eq_stored {s : State} (hr : s.regionOk) (h : s.woff.toNat + 4 ≤ s.rlen.toNat) :
    s.storeBlock = .ok s.stored := storeBlock_inBounds hr h

end State

theorem bit_ne_zero {x : Bit} (h : x = 1) : x ≠ 0 := by
  rw [h]
  decide

/-! ## What `NR.PUSH` responds, and when it raises -/

theorem exec_nrPush_noBlock {s : State} {sn : Word16} (hv : s.eValid = 0) :
    exec (.nrPush sn) s = .next ((s.openBlock sn).respond []) := by
  rw [exec, execNrPush, if_pos hv, State.conclude_ok]

section OpenBlock

variable {s : State} {sn : Word16} (hv : s.eValid = 1)
include hv

theorem exec_nrPush_repeats (h : sn = s.eLast) : exec (.nrPush sn) s = .next (s.respond []) := by
  rw [exec, execNrPush, if_neg (bit_ne_zero hv), seqOrder_repeats.2 h.symm]
  rfl

theorem exec_nrPush_outOfOrder (h : seqOrder s.eLast sn = .outOfOrder) :
    exec (.nrPush sn) s = .next (s.raise .invalidOrderError) := by
  rw [exec, execNrPush, if_neg (bit_ne_zero hv), h]
  rfl

theorem exec_nrPush_follows (h : seqOrder s.eLast sn = .follows) :
    exec (.nrPush sn) s = s.conclude (s.pushFollowing sn) := by
  rw [exec, execNrPush, if_neg (bit_ne_zero hv), h]

theorem exec_nrPush_extends (h : seqOrder s.eLast sn = .follows) (h16 : (seqSub sn s.ePid).toNat ≤ 16) :
    exec (.nrPush sn) s = .next ((s.extendBlock (seqSub sn s.ePid).toNat sn).respond []) := by
  rw [exec_nrPush_follows hv h, State.pushFollowing, if_pos h16, State.conclude_ok]

theorem exec_nrPush_outOfBounds (h : seqOrder s.eLast sn = .follows) (h16 : 16 < (seqSub sn s.ePid).toNat)
    (hroom : s.rlen.toNat < s.woff.toNat + 4) : exec (.nrPush sn) s = .next (s.raise .outOfBounds) := by
  rw [exec_nrPush_follows hv h, State.pushFollowing, if_neg (by omega), State.storeBlock_outOfBounds hroom,
    error_bind, State.conclude_raised]

theorem exec_nrPush_stores (h : seqOrder s.eLast sn = .follows) (h16 : 16 < (seqSub sn s.ePid).toNat)
    (hroom : s.woff.toNat + 4 ≤ s.rlen.toNat) (hr : s.regionOk) :
    exec (.nrPush sn) s = .next ((s.stored.openBlock sn).respond [s.openedBlock.toData]) := by
  rw [exec_nrPush_follows hv h, State.pushFollowing, if_neg (by omega), State.storeBlock_eq_stored hr hroom,
    ok_bind, State.conclude_ok]

/-- The offset of a number that follows is exact: the last number is at most 16 from the base, so the two distances add
up below 2^16 (R147). -/
theorem offset_of_follows (he : s.encoderOk) (h : seqOrder s.eLast sn = .follows) :
    (seqSub sn s.ePid).toNat = (seqSub s.eLast s.ePid).toNat + (seqSub sn s.eLast).toNat := by
  obtain ⟨hlast, -, -⟩ := he hv
  obtain ⟨-, hstep⟩ := seqOrder_follows.1 h
  exact seqSub_add (by omega)

end OpenBlock

/-- Settles O41: an outcome of the order check for each hypothesis, and of the offset where the number follows. -/
theorem nrPushResult : Obligations.NrPushResult := by
  refine ⟨fun _ h => decode_of_opcode (m := .nrPush) h rfl, fun s sn =>
    ⟨exec_nrPush_noBlock, exec_nrPush_repeats, fun hv h => exec_nrPush_outOfOrder hv (seqOrder_outOfOrder.2 h),
      fun hv h1 h2 he => ?_⟩⟩
  have ho : seqOrder s.eLast sn = .follows := seqOrder_follows.2 ⟨h1, h2⟩
  refine ⟨offset_of_follows hv he ho, exec_nrPush_extends hv ho, exec_nrPush_outOfBounds hv ho,
    fun h16 hroom hr => ⟨_, exec_nrPush_stores hv ho h16 hroom hr, ?_, fun a => ?_⟩⟩
  · rw [State.stored_eq, State.openBlock, State.respond, hv]
    rfl
  · rw [State.byteAt_respond, State.byteAt_openBlock, State.byteAt_stored]

/-! ## What `NR.FLUSH` responds, and when it raises -/

theorem exec_nrFlush_noBlock {s : State} (hv : s.eValid = 0) : exec .nrFlush s = .next (s.respond []) := by
  rw [exec, execNrFlush, if_pos hv, State.conclude_ok]

theorem exec_nrFlush_outOfBounds {s : State} (hv : s.eValid = 1) (hroom : s.rlen.toNat < s.woff.toNat + 4) :
    exec .nrFlush s = .next (s.raise .outOfBounds) := by
  rw [exec, execNrFlush, if_neg (bit_ne_zero hv), State.storeBlock_outOfBounds hroom, error_bind,
    State.conclude_raised]

theorem exec_nrFlush_stores {s : State} (hv : s.eValid = 1) (hroom : s.woff.toNat + 4 ≤ s.rlen.toNat)
    (hr : s.regionOk) :
    exec .nrFlush s = .next (s.stored.closeBlock.respond [s.openedBlock.toData]) := by
  rw [exec, execNrFlush, if_neg (bit_ne_zero hv), State.storeBlock_eq_stored hr hroom, ok_bind, State.conclude_ok]

/-- Settles O42: no block, no room, or the store of the open block. -/
theorem nrFlushResult : Obligations.NrFlushResult := by
  refine ⟨fun _ h => decode_of_opcode (m := .nrFlush) h rfl, fun s =>
    ⟨exec_nrFlush_noBlock, exec_nrFlush_outOfBounds, fun hv hroom hr =>
      ⟨_, exec_nrFlush_stores hv hroom hr, ?_, fun a => ?_⟩⟩⟩
  · rw [State.stored_eq]
    rfl
  · rw [State.byteAt_respond, State.byteAt_closeBlock, State.byteAt_stored]

/-! ## The list orders (R144) -/

/-- The condition on each element and the one before it, by position. -/
theorem neighbours_iff (ok : SeqOrder → Bool) (l : List Word16) :
    neighbours ok l = true ↔
      ∀ (j : Nat) (a b : Word16), l[j]? = some a → l[j + 1]? = some b → ok (seqOrder a b) = true := by
  induction l using neighbours.induct with
  | case1 => simp [neighbours]
  | case2 => simp [neighbours]
  | case3 a b rest ih =>
    rw [neighbours, Bool.and_eq_true, ih]
    constructor
    · rintro ⟨hab, hrest⟩ (_ | j) x y hx hy
      · obtain rfl : a = x := by simpa using hx
        obtain rfl : b = y := by simpa using hy
        exact hab
      · exact hrest j x y hx hy
    · exact fun h => ⟨h 0 a b rfl rfl, fun j => h (j + 1)⟩

theorem ascending_iff (l : List Word16) :
    ascending l = true ↔
      ∀ (j : Nat) (a b : Word16), l[j]? = some a → l[j + 1]? = some b → seqOrder a b = .follows := by
  simp only [ascending, neighbours_iff, beq_iff_eq]

theorem nonDescending_iff (l : List Word16) :
    nonDescending l = true ↔
      ∀ (j : Nat) (a b : Word16), l[j]? = some a → l[j + 1]? = some b → seqOrder a b ≠ .outOfOrder := by
  simp only [nonDescending, neighbours_iff, bne_iff_ne]

/-- The three orders are all there are. -/
theorem SeqOrder.ne_outOfOrder_iff {o : SeqOrder} : o ≠ .outOfOrder ↔ o = .follows ∨ o = .repeats := by
  cases o <;> decide

/-- Settles O43: the three classes by the value of the difference, and each list order by its neighbours. -/
theorem sequenceOrders : Obligations.SequenceOrders := by
  refine ⟨fun a b => ⟨?_, seqOrder_repeats, ?_⟩, fun l => ⟨ascending_iff l, ?_⟩⟩
  · rw [seqOrder_follows, seqSub_toNat]
  · rw [seqOrder_outOfOrder, seqSub_toNat]
  · simp only [nonDescending_iff, SeqOrder.ne_outOfOrder_iff]

/-! ## `Pack` (R150) -/

/-- The offset of `x` from `base` has a place in a block: the base itself, or one of the 16 mask bits. -/
def fitsBlock (base x : Word16) : Bool := decide ((seqSub x base).toNat ≤ 16)

/-- The mask of the block on `base` once `x` has joined it; a repeat of the base has no bit. -/
def joinMask (base blp x : Word16) : Word16 := if x = base then blp else blp ||| offsetBit (seqSub x base).toNat

/-- With a block open, the numbers up to the first that does not fit join it, and the rest is packed anew. -/
theorem packFrom_eq (base blp : Word16) (l : List Word16) :
    packFrom ⟨base, blp⟩ l =
      ⟨base, (l.takeWhile (fitsBlock base)).foldl (joinMask base) blp⟩ ::
        packAll (l.dropWhile (fitsBlock base)) := by
  induction l generalizing blp with
  | nil => rfl
  | cons x rest ih =>
    rw [packFrom]
    by_cases hfit : fitsBlock base x = true
    · rw [List.takeWhile_cons_of_pos hfit, List.dropWhile_cons_of_pos hfit, List.foldl_cons, ← ih, joinMask]
      by_cases hbase : base = x
      · rw [if_pos (seqSub_eq_zero.2 hbase), if_pos hbase.symm]
      · rw [if_neg (mt seqSub_eq_zero.1 hbase), if_pos (of_decide_eq_true hfit), if_neg (Ne.symm hbase)]
    · have hfar : ¬ (seqSub x base).toNat ≤ 16 := fun h => hfit (decide_eq_true h)
      have hne : (seqSub x base).toNat ≠ 0 := by omega
      rw [List.takeWhile_cons_of_neg hfit, List.dropWhile_cons_of_neg hfit, if_neg hne, if_neg hfar]
      rfl

theorem pack_eq_none_iff (l : List Word16) : pack l = none ↔ nonDescending l = false := by
  unfold pack
  split <;> simp [*]

theorem pack_eq_some {l : List Word16} {bs : List Block} (h : pack l = some bs) :
    nonDescending l = true ∧ bs = packAll l := by
  unfold pack at h
  split at h
  · exact ⟨‹_›, by simpa using h.symm⟩
  · cases h

/-- Settles O44: `Pack` fails on a list that is not non-descending; with the first number's block open, the loop is
greedy. -/
theorem packIsGreedy : Obligations.PackIsGreedy := by
  refine ⟨fun l => ?_, fun l bs h => ?_, rfl, fun s rest => packFrom_eq s 0 rest⟩
  · rw [pack_eq_none_iff, ← Bool.not_eq_true, nonDescending_iff]
    push Not
    simp only [seqOrder_outOfOrder]
    rfl
  · obtain ⟨-, hbs⟩ := pack_eq_some h
    exact hbs

end Sys2Proof.Machine

/-! SUPPORT. A failing command (60_exceptions R173). -/

namespace Sys2Proof.Machine

/-- Settles O13: by the inversion of a command word, its one response carries `OK` when the command had its effect, and
otherwise the next state is a `raise` on the state before, whose `ESR` bit is the one listed for its status. -/
theorem failureChangesOnlyEsr : Obligations.FailureChangesOnlyEsr := by
  intro w s t r h hr hfail
  rcases execWord_cases h with ⟨u, d, -, hrsps, rfl⟩ | ⟨e, rfl⟩
  · have hok : ⟨.ok, d⟩ = r := by simpa [hrsps] using hr
    exact absurd (congrArg Response.status hok.symm) hfail
  · obtain rfl : ⟨e.status, []⟩ = r := by simpa using hr
    refine ⟨rfl, ?_⟩
    cases e <;> rfl

end Sys2Proof.Machine

/-! SUPPORT. The command word as an assembler writes it: decode and encode undo each other (30_encoding R71 to R77), and
which lines assemble (R82). -/

namespace Sys2Proof

/-! ## The narrow fields (R70) -/

theorem fieldN3_eq_setWidth (w : CmdWord) : fieldN3 w = (fieldN w).setWidth 3 := by
  apply BitVec.eq_of_getLsbD_eq
  intro i hi
  simp [fieldN3, fieldN, hi, show i < 8 by omega]

theorem fieldC8_eq_setWidth (w : CmdWord) : fieldC8 w = (fieldC w).setWidth 8 := by
  apply BitVec.eq_of_getLsbD_eq
  intro i hi
  simp [fieldC8, fieldC, hi, show i < 16 by omega]

/-- Settles O2: the word form gives the row, and each field of a packed word is the operand packed there. -/
theorem decodeOfEncode : Obligations.DecodeOfEncode := by
  intro i
  obtain ⟨-, -, hrow, -⟩ := Laws.WordForm.all i
  rw [decode, hrow]
  cases i <;> simp [Instr.mnemonic, cutOperands, encode, fieldN3_eq_setWidth, fieldC8_eq_setWidth]

/-- Settles O1: each word of the table is decoded. -/
theorem specWordsDecode : Obligations.SpecWordsDecode := by
  unfold Obligations.SpecWordsDecode
  decide

/-! ## A word is its fields (R70) -/

theorem packWord_fields (w : CmdWord) :
    packWord (fieldOP w) (fieldN w) (fieldA w) (fieldB w) (fieldC w) = w := by
  apply BitVec.eq_of_getLsbD_eq
  intro i hi
  simp only [fieldOP, fieldN, fieldA, fieldB, fieldC, packWord, BitVec.getLsbD_extractLsb', BitVec.getLsbD_append]
  grind

/-- The bits of `N` a format reads (R72); `Format.aMask`, `Format.bMask` and `Format.cMask` are those of `A`, `B`, `C`. -/
def Format.nMask : Format → BitVec 8
  | .n | .nc8 => 0xFF
  | .na => 0x07
  | .z | .a | .b | .ab | .ac8 | .abc => 0

def Format.aMask : Format → Word16
  | .a | .ab | .ac8 | .na | .abc => 0xFFFF
  | .z | .n | .b | .nc8 => 0

def Format.bMask : Format → Word16
  | .b | .ab | .abc => 0xFFFF
  | .z | .n | .a | .ac8 | .na | .nc8 => 0

def Format.cMask : Format → Word16
  | .abc => 0xFFFF
  | .ac8 | .nc8 => 0x00FF
  | .z | .n | .a | .b | .ab | .na => 0

theorem readMask_eq_packWord (m : Mnemonic) :
    m.readMask = packWord 0xFF m.format.nMask m.format.aMask m.format.bMask m.format.cMask := by
  cases m <;> decide

theorem setWidth_bit (n : BitVec 8) : (n.setWidth 3).setWidth 8 = n &&& 0x07 := by
  revert n
  decide

theorem setWidth_byte (c : Word16) : (c.setWidth 8).setWidth 16 = c &&& 0x00FF := by
  apply BitVec.eq_of_toNat_eq
  have hmod := Nat.and_two_pow_sub_one_eq_mod c.toNat 8
  simpa [BitVec.toNat_and, Nat.mod_eq_of_lt (show c.toNat % 256 < 65536 by omega)] using hmod.symm

theorem and_fullByte (x : BitVec 8) : x &&& 0xFF#8 = x := BitVec.and_allOnes

theorem and_fullWord (x : Word16) : x &&& 0xFFFF#16 = x := BitVec.and_allOnes

/-- The `OP` value of a row. -/
def Mnemonic.opcode : Mnemonic → BitVec 8
  | .rgnSet => 0x01 | .curSeek => 0x02 | .regRd => 0x03 | .memRdb => 0x04 | .memWrb => 0x05
  | .bitRd => 0x10 | .bitRdb => 0x11 | .bitWr => 0x12
  | .nbDec => 0x20 | .nbEnc => 0x21
  | .nrDec => 0x30 | .nrStart => 0x31 | .nrPush => 0x32 | .nrFlush => 0x33

theorem eq_opcode_of_lookupOpcode {op : BitVec 8} {m : Mnemonic} (h : lookupOpcode op = some m) : op = m.opcode := by
  have hrow : ∀ r ∈ opcodeTable, r.1 = r.2.opcode := by decide
  obtain ⟨r, hr, rfl⟩ := Option.map_eq_some_iff.1 h
  rw [← hrow r (List.mem_of_find?_eq_some hr)]
  exact (by simpa using List.find?_some hr : r.1 = op).symm

/-- Encoding what a row cuts from a word keeps the bits the row reads and zeroes the others. -/
theorem encode_cutOperands {w : CmdWord} {m : Mnemonic} (h : lookupOpcode (fieldOP w) = some m) :
    encode (cutOperands m w) = w &&& m.readMask := by
  have hw : w &&& m.readMask = packWord m.opcode (fieldN w &&& m.format.nMask) (fieldA w &&& m.format.aMask)
      (fieldB w &&& m.format.bMask) (fieldC w &&& m.format.cMask) := by
    conv_lhs => rw [← packWord_fields w, readMask_eq_packWord, packWord_and, eq_opcode_of_lookupOpcode h]
    congr 1
    cases m <;> rfl
  rw [hw]
  cases m with
  | rgnSet | regRd | memRdb | bitRd | bitRdb | nbDec | nbEnc | nrDec | nrStart | nrPush | nrFlush =>
    simp [cutOperands, encode, Mnemonic.opcode, Mnemonic.format, Format.nMask, Format.aMask, Format.bMask, Format.cMask,
      and_fullByte, and_fullWord]
  | curSeek =>
    simp [cutOperands, encode, Mnemonic.opcode, Mnemonic.format, Format.nMask, Format.aMask, Format.bMask, Format.cMask,
      and_fullWord, fieldN3_eq_setWidth, setWidth_bit]
  | memWrb | bitWr =>
    simp [cutOperands, encode, Mnemonic.opcode, Mnemonic.format, Format.nMask, Format.aMask, Format.bMask, Format.cMask,
      and_fullByte, and_fullWord, fieldC8_eq_setWidth, setWidth_byte]

theorem decode_eq_ok {w : CmdWord} {i : Instr} (h : decode w = .ok i) :
    ∃ m, lookupOpcode (fieldOP w) = some m ∧ i = cutOperands m w := by
  unfold decode at h
  split at h
  case h_1 m hm => exact ⟨m, hm, (Except.ok.inj h).symm⟩
  case h_2 => cases h

/-- Settles O3: encoding keeps the bits the row reads, and a canonical word has no others. -/
theorem encodeOfDecode : Obligations.EncodeOfDecode := by
  intro w i hdec hcanon
  obtain ⟨m, hm, rfl⟩ := decode_eq_ok hdec
  have hzero : w &&& ~~~ m.readMask = 0 := by simpa [canonicalWord, hm] using hcanon
  calc encode (cutOperands m w) = w &&& m.readMask := encode_cutOperands hm
    _ = w &&& m.readMask ||| w &&& ~~~ m.readMask := by rw [hzero]; exact BitVec.or_zero.symm
    _ = w := by rw [← BitVec.and_or_distrib_left, BitVec.or_not_self, BitVec.and_allOnes]

/-! ## Lines that assemble (R82) -/

/-- The operands are as many as the limits, and each is below its limit. -/
def Fits (ops lims : List Nat) : Prop := List.Forall₂ (· < ·) ops lims

theorem AsmLine.wellFormed_iff_fits (l : AsmLine) :
    l.wellFormed = true ↔ Fits l.operands l.mnemonic.operandLimits := by
  simp only [Fits, List.forall₂_iff_zip, wellFormed, arityOk, operandsFit, Bool.and_eq_true, beq_iff_eq,
    List.all_eq_true, decide_eq_true_eq, Prod.forall]

/-- `Fits`, by position. -/
theorem fits_iff_getElem? (ops lims : List Nat) : Fits ops lims ↔ ops.length = lims.length ∧
    ∀ (k : Nat) (v lim : Nat), ops[k]? = some v → lims[k]? = some lim → v < lim := by
  have hzip : (∀ p ∈ ops.zip lims, p.1 < p.2) ↔
      ∀ (k : Nat) (v lim : Nat), ops[k]? = some v → lims[k]? = some lim → v < lim := by
    simp only [List.mem_iff_getElem?, List.getElem?_zip_eq_some]
    exact ⟨fun h k v lim hv hl => h (v, lim) ⟨k, hv, hl⟩, fun h p ⟨k, hv, hl⟩ => h k _ _ hv hl⟩
  rw [← hzip, Fits, List.forall₂_iff_zip, Prod.forall]

/-- An operand below `2 ^ x` is the value of a field of `x` bits. -/
theorem Fits.cons_field {x : Nat} {ops lims : List Nat} (h : Fits ops (2 ^ x :: lims)) :
    ∃ (a : BitVec x) (rest : List Nat), ops = a.toNat :: rest ∧ Fits rest lims := by
  obtain ⟨v, rest, hv, hrest, rfl⟩ := List.forall₂_cons_right_iff.1 h
  exact ⟨.ofNatLT v hv, rest, by simp, hrest⟩

theorem Fits.one_field {x : Nat} {ops : List Nat} (h : Fits ops [2 ^ x]) : ∃ a : BitVec x, ops = [a.toNat] := by
  obtain ⟨a, rest, rfl, hrest⟩ := h.cons_field
  exact ⟨a, by rw [List.forall₂_nil_right_iff.1 hrest]⟩

theorem Fits.two_fields {x y : Nat} {ops : List Nat} (h : Fits ops [2 ^ x, 2 ^ y]) :
    ∃ (a : BitVec x) (b : BitVec y), ops = [a.toNat, b.toNat] := by
  obtain ⟨a, rest, rfl, hrest⟩ := h.cons_field
  obtain ⟨b, rfl⟩ := hrest.one_field
  exact ⟨a, b, rfl⟩

/-- A well-formed line spells a command: each operand is the value of its field. -/
theorem AsmLine.exists_toAsm {l : AsmLine} (h : l.wellFormed = true) : ∃ i : Instr, i.toAsm = l := by
  obtain ⟨m, ops⟩ := l
  replace h : Fits ops m.operandLimits := (wellFormed_iff_fits _).1 h
  cases m with
  | rgnSet => obtain ⟨base, len, rfl⟩ := h.two_fields (x := 16) (y := 16); exact ⟨.rgnSet base len, rfl⟩
  | curSeek => obtain ⟨byte, bit, rfl⟩ := h.two_fields (x := 16) (y := 3); exact ⟨.curSeek byte bit, rfl⟩
  | regRd => obtain ⟨idx, rfl⟩ := h.one_field (x := 8); exact ⟨.regRd idx, rfl⟩
  | memRdb => obtain ⟨off, rfl⟩ := h.one_field (x := 16); exact ⟨.memRdb off, rfl⟩
  | memWrb => obtain ⟨off, val, rfl⟩ := h.two_fields (x := 16) (y := 8); exact ⟨.memWrb off val, rfl⟩
  | bitRd => obtain ⟨n, rfl⟩ := h.one_field (x := 8); exact ⟨.bitRd n, rfl⟩
  | bitRdb => obtain rfl := List.forall₂_nil_right_iff.1 h; exact ⟨.bitRdb, rfl⟩
  | bitWr => obtain ⟨n, val, rfl⟩ := h.two_fields (x := 8) (y := 8); exact ⟨.bitWr n val, rfl⟩
  | nbDec => obtain ⟨off, rfl⟩ := h.one_field (x := 16); exact ⟨.nbDec off, rfl⟩
  | nbEnc =>
    obtain ⟨off, rest, rfl, hrest⟩ := h.cons_field (x := 16)
    obtain ⟨pid, blp, rfl⟩ := hrest.two_fields (x := 16) (y := 16)
    exact ⟨.nbEnc off pid blp, rfl⟩
  | nrDec => obtain ⟨off, len, rfl⟩ := h.two_fields (x := 16) (y := 16); exact ⟨.nrDec off len, rfl⟩
  | nrStart => obtain ⟨off, rfl⟩ := h.one_field (x := 16); exact ⟨.nrStart off, rfl⟩
  | nrPush => obtain ⟨sn, rfl⟩ := h.one_field (x := 16); exact ⟨.nrPush sn, rfl⟩
  | nrFlush => obtain rfl := List.forall₂_nil_right_iff.1 h; exact ⟨.nrFlush, rfl⟩

theorem AsmLine.assemble_eq_some_iff {l : AsmLine} {i : Instr} : l.assemble = some i ↔ i.toAsm = l := by
  constructor
  · intro h
    have hwf : l.wellFormed = true := by
      by_contra hn
      simp [assemble, hn] at h
    obtain ⟨j, rfl⟩ := exists_toAsm hwf
    obtain ⟨-, hj, -, -⟩ := Laws.WordForm.all j
    rw [Option.some.inj (h.symm.trans hj)]
  · rintro rfl
    obtain ⟨-, hi, -, -⟩ := Laws.WordForm.all i
    exact hi

/-- Settles O6: the lines that assemble are those that spell a command, and these are the well-formed ones. -/
theorem assembleExactlyWhenOperandsFit : Obligations.AssembleExactlyWhenOperandsFit := by
  intro l
  simp only [AsmLine.assemble_eq_some_iff, ← fits_iff_getElem?, ← AsmLine.wellFormed_iff_fits]
  refine ⟨⟨?_, AsmLine.exists_toAsm⟩, ?_⟩
  · rintro ⟨i, rfl⟩
    obtain ⟨hwf, -, -, -⟩ := Laws.WordForm.all i
    exact hwf
  · rintro i rfl
    exact ⟨rfl, rfl⟩

end Sys2Proof

/-! SUPPORT. A block and the last number that joined it (10_state R28; 43_nack_run R146, R147): what joining keeps, and
what `ExpandBlock` then gives (R140). `Pack` and the encoder's commands both build their blocks so. -/

namespace Sys2Proof.Machine

namespace Block

/-- I4 (10_state R28) of a block and the last number that joined it. -/
def tracks (b : Block) (last : Word16) : Prop :=
  (seqSub last b.pid).toNat ≤ 16 ∧
  (∀ i, i < 16 → b.blp.getLsbD i = true → i + 1 ≤ (seqSub last b.pid).toNat) ∧
  (last ≠ b.pid → b.blp.getLsbD ((seqSub last b.pid).toNat - 1) = true)

/-- The block once `sn` has joined it (R146). -/
def join (b : Block) (sn : Word16) : Block := ⟨b.pid, b.blp ||| offsetBit (seqSub sn b.pid).toNat⟩

end Block

theorem State.encoderOk_iff_tracks (s : State) :
    s.encoderOk ↔ (s.eValid = 1 → s.openedBlock.tracks s.eLast) := Iff.rfl

theorem offsetBit_getLsbD {o i : Nat} (ho : 1 ≤ o) (hi : i < 16) : (offsetBit o).getLsbD i = decide (i + 1 = o) := by
  rw [offsetBit, BitVec.getLsbD_shiftLeft, BitVec.getLsbD_one]
  by_cases h : i + 1 = o
  · simp [hi, show ¬ i < o - 1 by omega, show i - (o - 1) = 0 by omega, h]
  · by_cases hlt : i < o - 1
    · simp [hlt, h]
    · simp [h, show ¬ i - (o - 1) = 0 by omega]

theorem seqAdd_seqSub (a b : Word16) : seqAdd a (BitVec.ofNat 16 (seqSub b a).toNat) = b := by
  rw [BitVec.ofNat_toNat, BitVec.setWidth_eq, seqAdd, seqSub, BitVec.add_comm, BitVec.sub_add_cancel]

namespace Block

variable {b : Block} {last sn : Word16}

/-- A fresh block's last number is its base. -/
theorem tracks_start (sn : Word16) : tracks ⟨sn, 0⟩ sn := by
  refine ⟨?_, fun i _ hi => ?_, fun hne => absurd rfl hne⟩
  · simp [seqSub]
  · simp at hi

/-- The offset of a number that follows is exact: the last number is at most 16 from the base (R147). -/
theorem tracks.offset (h : b.tracks last) (ho : seqOrder last sn = .follows) :
    (seqSub sn b.pid).toNat = (seqSub last b.pid).toNat + (seqSub sn last).toNat := by
  obtain ⟨hlast, -, -⟩ := h
  obtain ⟨-, hstep⟩ := seqOrder_follows.1 ho
  exact seqSub_add (by omega)

theorem tracks.offset_lt (h : b.tracks last) (ho : seqOrder last sn = .follows) :
    (seqSub last b.pid).toNat < (seqSub sn b.pid).toNat := by
  obtain ⟨hstep, -⟩ := seqOrder_follows.1 ho
  rw [h.offset ho]
  omega

theorem tracks.join (h : b.tracks last) (ho : seqOrder last sn = .follows) (h16 : (seqSub sn b.pid).toNat ≤ 16) :
    (b.join sn).tracks sn := by
  have hlt := h.offset_lt ho
  obtain ⟨-, hbits, -⟩ := h
  refine ⟨h16, fun i hi hset => ?_, fun _ => ?_⟩
  · rw [Block.join, BitVec.getLsbD_or, offsetBit_getLsbD (by omega) hi, Bool.or_eq_true, decide_eq_true_eq] at hset
    show i + 1 ≤ (seqSub sn b.pid).toNat
    rcases hset with hset | hset
    · have := hbits i hi hset
      omega
    · omega
  · show (b.blp ||| offsetBit (seqSub sn b.pid).toNat).getLsbD ((seqSub sn b.pid).toNat - 1) = true
    rw [BitVec.getLsbD_or, offsetBit_getLsbD (by omega) (by omega)]
    simp [show (seqSub sn b.pid).toNat - 1 + 1 = (seqSub sn b.pid).toNat by omega]

/-- The last number's bit is set already. -/
theorem tracks.join_last (h : b.tracks last) (hne : last ≠ b.pid) : b.join last = b := by
  obtain ⟨h16, -, hset⟩ := h
  have hpos : (seqSub last b.pid).toNat ≠ 0 := fun h0 => hne (seqSub_eq_zero.1 h0).symm
  suffices hblp : b.blp ||| offsetBit (seqSub last b.pid).toNat = b.blp by rw [Block.join, hblp]
  apply BitVec.eq_of_getLsbD_eq
  intro i hi
  rw [BitVec.getLsbD_or, offsetBit_getLsbD (by omega) hi]
  by_cases hl : i + 1 = (seqSub last b.pid).toNat
  · rw [show i = (seqSub last b.pid).toNat - 1 by omega, hset hne, Bool.true_or]
  · simp [hl]

end Block

/-! ## Expansion (R140) -/

theorem expandBlock_start (sn : Word16) : expandBlock ⟨sn, 0⟩ = [sn] := by
  simp [expandBlock]

/-- A predicate that differs from another at `k` alone, with nothing above `k`, selects one element more. -/
theorem filter_range_append {f g : Nat → Bool} {k n : Nat} (hk : k < n) (hlow : ∀ i, i < k → g i = f i)
    (hg : g k = true) (hf : ∀ i, k ≤ i → i < n → f i = false)
    (habove : ∀ i, k < i → i < n → g i = false) :
    (List.range n).filter g = (List.range n).filter f ++ [k] := by
  induction n with
  | zero => omega
  | succ n ih =>
    rw [List.range_succ, List.filter_append, List.filter_append, List.filter_singleton, List.filter_singleton,
      hf n (by omega) (by omega)]
    rcases Nat.lt_succ_iff_lt_or_eq.1 hk with hlt | rfl
    · rw [habove n hlt (by omega), ih hlt (fun i h1 h2 => hf i h1 (by omega)) fun i h1 h2 => habove i h1 (by omega)]
      simp
    · rw [hg, List.filter_congr fun i hi => hlow i (List.mem_range.1 hi)]
      simp

/-- Joining a number that follows appends it to the expansion. -/
theorem expandBlock_join {b : Block} {last sn : Word16} (h : b.tracks last) (ho : seqOrder last sn = .follows)
    (h16 : (seqSub sn b.pid).toNat ≤ 16) : expandBlock (b.join sn) = expandBlock b ++ [sn] := by
  have hlt := h.offset_lt ho
  obtain ⟨-, hbits, -⟩ := h
  have hbit (i : Nat) (hi : i < 16) : (b.join sn).blp.getLsbD i =
      (b.blp.getLsbD i || decide (i + 1 = (seqSub sn b.pid).toNat)) := by
    rw [← offsetBit_getLsbD (by omega) hi, ← BitVec.getLsbD_or]
    rfl
  have hclear (i : Nat) (h1 : (seqSub sn b.pid).toNat - 1 ≤ i) (h2 : i < 16) : b.blp.getLsbD i = false := by
    by_contra hset
    have := hbits i h2 (by simpa using hset)
    omega
  have hfilter : (List.range 16).filter (b.join sn).blp.getLsbD =
      (List.range 16).filter b.blp.getLsbD ++ [(seqSub sn b.pid).toNat - 1] := by
    refine filter_range_append (by omega) (fun i hi => ?_) ?_ hclear fun i h1 h2 => ?_
    · rw [hbit i (by omega)]
      simp [show i + 1 ≠ (seqSub sn b.pid).toNat by omega]
    · rw [hbit _ (by omega)]
      simp [show (seqSub sn b.pid).toNat - 1 + 1 = (seqSub sn b.pid).toNat by omega]
    · rw [hbit i h2, hclear i (by omega) h2]
      simp [show i + 1 ≠ (seqSub sn b.pid).toNat by omega]
  rw [expandBlock_eq_map_filter, expandBlock_eq_map_filter, hfilter, List.map_append, List.map_singleton,
    Nat.sub_add_cancel (by omega), ← List.cons_append]
  congr 2
  exact seqAdd_seqSub b.pid sn

/-- Each number of a block is at most 16 from its base. -/
theorem fitsBlock_of_mem_expandBlock {b : Block} {x : Word16} (h : x ∈ expandBlock b) : fitsBlock b.pid x = true := by
  rw [expandBlock_eq_map_filter, List.mem_cons, List.mem_map] at h
  refine decide_eq_true ?_
  rcases h with rfl | ⟨i, hi, rfl⟩
  · simp [seqSub]
  · have hi16 : i < 16 := List.mem_range.1 (List.mem_of_mem_filter hi)
    rw [seqSub, seqAdd, BitVec.add_comm, BitVec.add_sub_cancel, BitVec.toNat_ofNat]
    omega

theorem one_le_length_expandBlock (b : Block) : 1 ≤ (expandBlock b).length := by
  rw [length_expandBlock]
  omega

theorem length_expandBlock_le (b : Block) : (expandBlock b).length ≤ 17 := by
  have hle := List.length_filter_le (fun i => b.blp.getLsbD i) (List.range 16)
  rw [List.length_range] at hle
  rw [length_expandBlock]
  omega

/-- A run of `k` blocks gives between `k` and `17 k` numbers (R141). -/
theorem length_expand_bounds (bs : List Block) :
    bs.length ≤ (expand bs).length ∧ (expand bs).length ≤ 17 * bs.length := by
  induction bs with
  | nil => exact ⟨le_rfl, le_rfl⟩
  | cons b bs ih =>
    have h1 := one_le_length_expandBlock b
    have h17 := length_expandBlock_le b
    have hlen : (expand (b :: bs)).length = (expandBlock b).length + (expand bs).length := List.length_append
    rw [List.length_cons]
    omega

/-- Settles O39: the response's data is the expansion of `len / 4` blocks. -/
theorem nrDecElementCount : Obligations.NrDecElementCount := by
  intro s t off len d h hr
  rcases exec_cases h with ⟨u, d', he, rfl⟩ | ⟨e, -, rfl⟩
  · obtain ⟨-, hrsps⟩ := he.keeps_esr_rsps
    obtain rfl : d' = d := by simpa [hrsps] using hr
    obtain ⟨-, -, -, rfl⟩ := he
    rw [List.length_map]
    simpa using length_expand_bounds ((List.range (len.toNat / 4)).map fun j =>
      Block.ofNat (s.memRead (s.rbase.toNat + (off.toNat + 4 * j)) 4))
  · have hst : e.status = .ok := by
      have := (by simpa using hr : e.status = .ok ∧ [] = d)
      exact this.1
    cases e <;> cases hst

end Sys2Proof.Machine

/-! SUPPORT. The laws of `Pack` and `Expand` (43_nack_run R150 to R154). -/

namespace Sys2Proof.Machine

/-! ## One number of a list -/

theorem ascending_cons_cons {a b : Word16} {l : List Word16} :
    ascending (a :: b :: l) = true ↔ seqOrder a b = .follows ∧ ascending (b :: l) = true := by
  simp only [ascending, neighbours, Bool.and_eq_true, beq_iff_eq]

theorem nonDescending_cons_cons {a b : Word16} {l : List Word16} :
    nonDescending (a :: b :: l) = true ↔ seqOrder a b ≠ .outOfOrder ∧ nonDescending (b :: l) = true := by
  simp only [nonDescending, neighbours, Bool.and_eq_true, bne_iff_ne]

theorem nonDescending_of_ascending {l : List Word16} (h : ascending l = true) : nonDescending l = true := by
  rw [ascending_iff] at h
  rw [nonDescending_iff]
  intro j a b ha hb
  rw [h j a b ha hb]
  decide

theorem pack_of_nonDescending {l : List Word16} (h : nonDescending l = true) : pack l = some (packAll l) := if_pos h

/-- What `Pack` does with the next number, when a block is open and `last` was the last to join it: it skips a repeat,
lets the number join, or emits the block and opens the next. -/
theorem packFrom_cons_cases {b : Block} {last sn : Word16} (h : b.tracks last) (ho : seqOrder last sn ≠ .outOfOrder) :
    (sn = last ∧ ∀ l, packFrom b (sn :: l) = packFrom b l) ∨
    (seqOrder last sn = .follows ∧ (seqSub sn b.pid).toNat ≤ 16 ∧ (b.join sn).tracks sn ∧
      ∀ l, packFrom b (sn :: l) = packFrom (b.join sn) l) ∨
    (seqOrder last sn = .follows ∧ 16 < (seqSub sn b.pid).toNat ∧
      ∀ l, packFrom b (sn :: l) = b :: packFrom ⟨sn, 0⟩ l) := by
  have hjoin (l : List Word16) (h0 : (seqSub sn b.pid).toNat ≠ 0) (h16 : (seqSub sn b.pid).toNat ≤ 16) :
      packFrom b (sn :: l) = packFrom (b.join sn) l := by
    rw [packFrom, if_neg h0, if_pos h16]
    rfl
  rcases SeqOrder.ne_outOfOrder_iff.1 ho with ho | ho
  · have hlt := h.offset_lt ho
    by_cases h16 : (seqSub sn b.pid).toNat ≤ 16
    · exact .inr (.inl ⟨ho, h16, h.join ho h16, fun l => hjoin l (by omega) h16⟩)
    · exact .inr (.inr ⟨ho, by omega, fun l => by rw [packFrom, if_neg (by omega), if_neg h16]⟩)
  · obtain rfl := seqOrder_repeats.1 ho
    refine .inl ⟨rfl, fun l => ?_⟩
    by_cases hbase : last = b.pid
    · rw [packFrom, if_pos (seqSub_eq_zero.2 hbase.symm)]
    · have h0 : (seqSub last b.pid).toNat ≠ 0 := fun h0 => hbase (seqSub_eq_zero.1 h0).symm
      obtain ⟨h16, -, -⟩ := id h
      rw [hjoin l h0 h16, h.join_last hbase]

/-! ## `Expand` of `Pack` (R153) -/

theorem dropRepeats_cons_self (a : Word16) (l : List Word16) : dropRepeats (a :: a :: l) = dropRepeats (a :: l) :=
  if_pos rfl

theorem dropRepeats_cons_of_ne {a b : Word16} (h : a ≠ b) (l : List Word16) :
    dropRepeats (a :: b :: l) = a :: dropRepeats (b :: l) := if_neg h

theorem ne_of_follows {a b : Word16} (h : seqOrder a b = .follows) : a ≠ b := by
  rintro rfl
  rw [seqOrder_repeats.2 rfl] at h
  cases h

theorem dropRepeats_of_ascending {l : List Word16} (h : ascending l = true) : dropRepeats l = l := by
  induction l using dropRepeats.induct with
  | case1 => rfl
  | case2 => rfl
  | case3 a l ih =>
    obtain ⟨hab, -⟩ := ascending_cons_cons.1 h
    exact absurd rfl (ne_of_follows hab)
  | case4 a b l hne ih =>
    obtain ⟨-, hl⟩ := ascending_cons_cons.1 h
    rw [dropRepeats_cons_of_ne hne, ih hl]

/-- The first element stays. -/
theorem dropRepeats_cons (a : Word16) (l : List Word16) : dropRepeats (a :: l) = a :: (dropRepeats (a :: l)).tail := by
  induction l with
  | nil => rfl
  | cons b l ih =>
    by_cases hab : a = b
    · rw [← hab, dropRepeats_cons_self]
      exact ih
    · rw [dropRepeats_cons_of_ne hab]
      rfl

/-- With a block open, the run expands to that block's numbers and then the numbers after `last`, repeats dropped. -/
theorem expand_packFrom {b : Block} {last : Word16} {l : List Word16} (h : b.tracks last)
    (hl : nonDescending (last :: l) = true) :
    expand (packFrom b l) = expandBlock b ++ (dropRepeats (last :: l)).tail := by
  induction l generalizing b last with
  | nil => rfl
  | cons sn l ih =>
    obtain ⟨ho, hrest⟩ := nonDescending_cons_cons.1 hl
    rcases packFrom_cons_cases h ho with ⟨rfl, hskip⟩ | ⟨hf, h16, hjoined, hjoin⟩ | ⟨hf, -, hnext⟩
    · rw [hskip, dropRepeats_cons_self, ih h hrest]
    · rw [hjoin, ih hjoined hrest, expandBlock_join h hf h16, dropRepeats_cons_of_ne (ne_of_follows hf),
        List.tail_cons, dropRepeats_cons sn l, List.append_assoc]
      rfl
    · have hexpand : expand (b :: packFrom ⟨sn, 0⟩ l) = expandBlock b ++ expand (packFrom ⟨sn, 0⟩ l) := rfl
      rw [hnext, hexpand, ih (Block.tracks_start sn) hrest, expandBlock_start,
        dropRepeats_cons_of_ne (ne_of_follows hf), List.tail_cons, dropRepeats_cons sn l]
      rfl

theorem expand_packAll {l : List Word16} (h : nonDescending l = true) : expand (packAll l) = dropRepeats l := by
  cases l with
  | nil => rfl
  | cons s l =>
    rw [packAll, expand_packFrom (Block.tracks_start s) h, expandBlock_start, dropRepeats_cons s l]
    rfl

/-- Settles O49: the first number opens the first block, and the rest is `expand_packFrom`. -/
theorem expandOfPackDropsRepeats : Obligations.ExpandOfPackDropsRepeats :=
  fun _ h => ⟨_, pack_of_nonDescending h, expand_packAll h⟩

/-- Settles O48: an ascending list has no repeats to drop. -/
theorem expandOfPackAscending : Obligations.ExpandOfPackAscending := by
  intro l h
  have hn := nonDescending_of_ascending h
  exact ⟨_, pack_of_nonDescending hn, by rw [expand_packAll hn, dropRepeats_of_ascending h]⟩

/-! ## Size (R152) -/

theorem packAll_eq_nil_iff (l : List Word16) : packAll l = [] ↔ l = [] := by
  cases l with
  | nil => simp [packAll]
  | cons s l =>
    rw [packAll, packFrom_eq]
    simp

/-- Settles O51: the elements less repeats are what the blocks expand to, one to 17 of each. -/
theorem packSizeBounds : Obligations.PackSizeBounds := by
  intro l bs h
  obtain ⟨hn, rfl⟩ := pack_eq_some h
  obtain ⟨hlow, hhigh⟩ := length_expand_bounds (packAll l)
  rw [expand_packAll hn] at hlow hhigh
  exact ⟨hhigh, hlow, packAll_eq_nil_iff l⟩

/-- Refutes O52: 0, 30000, 60000, 0 goes once round the 16-bit space, so three numbers take four blocks. -/
theorem not_packAtMostOneBlockPerDistinctNumber : ¬ Obligations.PackAtMostOneBlockPerDistinctNumber := by
  intro h
  have hpack : pack [0, 30000, 60000, 0] = some [⟨0, 0⟩, ⟨30000, 0⟩, ⟨60000, 0⟩, ⟨0, 0⟩] := by decide
  exact absurd (h _ _ hpack) (by decide)

/-! ## `Pack` of `Expand` (R154) -/

/-- Settles O53: a packed run expands to the list it was packed from; the other two runs are evaluated. -/
theorem packOfExpandOnlyOnPackedRuns : Obligations.PackOfExpandOnlyOnPackedRuns := by
  refine ⟨fun l bs h hbs => ?_, by decide, by decide⟩
  obtain ⟨hn, rfl⟩ := pack_eq_some hbs
  rw [expand_packAll hn, dropRepeats_of_ascending h, hbs]

/-! ## Minimality (R153 (c)) -/

/-- How many blocks a list takes with one open does not depend on that block's mask. -/
theorem length_packFrom (base blp : Word16) (l : List Word16) :
    (packFrom ⟨base, blp⟩ l).length = 1 + (packAll (l.dropWhile (fitsBlock base))).length := by
  rw [packFrom_eq, List.length_cons, Nat.add_comm]

theorem length_packFrom_cons_of_fits {base x : Word16} (h : fitsBlock base x = true) (l : List Word16) :
    (packFrom ⟨base, 0⟩ (x :: l)).length = (packFrom ⟨base, 0⟩ l).length := by
  rw [length_packFrom, length_packFrom, List.dropWhile_cons_of_pos h]

theorem length_packFrom_cons_of_not_fits {base x : Word16} (h : ¬ fitsBlock base x = true) (l : List Word16) :
    (packFrom ⟨base, 0⟩ (x :: l)).length = 1 + (packFrom ⟨x, 0⟩ l).length := by
  rw [length_packFrom, List.dropWhile_cons_of_neg h]
  rfl

theorem step_le_of_ne_outOfOrder {a b : Word16} (h : seqOrder a b ≠ .outOfOrder) : (seqSub b a).toNat ≤ 0x7FFF := by
  have := mt seqOrder_outOfOrder.2 h
  omega

/-- The exchange argument: of two open blocks with bases `a` and then `s`, both holding `last`, the later takes no more
blocks for the rest of the list, and at most one fewer. -/
theorem length_packFrom_exchange {a s last : Word16} {l : List Word16}
    (hbetween : (seqSub last a).toNat = (seqSub s a).toNat + (seqSub last s).toNat)
    (hlast : (seqSub last a).toNat ≤ 16) (hl : nonDescending (last :: l) = true) :
    (packFrom ⟨s, 0⟩ l).length ≤ (packFrom ⟨a, 0⟩ l).length ∧
      (packFrom ⟨a, 0⟩ l).length ≤ 1 + (packFrom ⟨s, 0⟩ l).length := by
  induction l generalizing a s last with
  | nil => exact ⟨le_rfl, by simp [packFrom]⟩
  | cons y l ih =>
    obtain ⟨ho, hrest⟩ := nonDescending_cons_cons.1 hl
    have hstep := step_le_of_ne_outOfOrder ho
    have hya : (seqSub y a).toNat = (seqSub last a).toNat + (seqSub y last).toNat := seqSub_add (by omega)
    have hys : (seqSub y s).toNat = (seqSub last s).toNat + (seqSub y last).toNat := seqSub_add (by omega)
    have hyy : (seqSub y y).toNat = 0 := seqSub_eq_zero.2 rfl
    by_cases hfa : fitsBlock a y = true
    · have hle : (seqSub y a).toNat ≤ 16 := of_decide_eq_true hfa
      have hfs : fitsBlock s y = true := decide_eq_true (by omega)
      rw [length_packFrom_cons_of_fits hfa, length_packFrom_cons_of_fits hfs]
      exact ih (by omega) hle hrest
    · rw [length_packFrom_cons_of_not_fits hfa]
      by_cases hfs : fitsBlock s y = true
      · have hle : (seqSub y s).toNat ≤ 16 := of_decide_eq_true hfs
        obtain ⟨hlow, hhigh⟩ := ih (a := s) (s := y) (last := y) (by omega) hle hrest
        rw [length_packFrom_cons_of_fits hfs]
        omega
      · rw [length_packFrom_cons_of_not_fits hfs]
        omega

theorem nonDescending_of_append {l₁ l₂ : List Word16} (h : nonDescending (l₁ ++ l₂) = true) :
    nonDescending l₂ = true := by
  rw [nonDescending_iff] at h ⊢
  intro j a b ha hb
  have hshift (k : Nat) : (l₁ ++ l₂)[l₁.length + k]? = l₂[k]? := by
    rw [List.getElem?_append_right (Nat.le_add_right _ _), Nat.add_sub_cancel_left]
  exact h (l₁.length + j) a b (by rw [hshift, ha]) (by rw [Nat.add_assoc, hshift, hb])

/-- An open block costs at most one block more than starting afresh. -/
theorem length_packFrom_le {base : Word16} {l : List Word16} (h : nonDescending l = true) :
    (packFrom ⟨base, 0⟩ l).length ≤ 1 + (packAll l).length := by
  cases l with
  | nil => exact le_rfl
  | cons y l =>
    by_cases hfit : fitsBlock base y = true
    · have hle : (seqSub y base).toNat ≤ 16 := of_decide_eq_true hfit
      have hyy : (seqSub y y).toNat = 0 := seqSub_eq_zero.2 rfl
      obtain ⟨-, hone⟩ := length_packFrom_exchange (s := y) (by omega) hle h
      rw [length_packFrom_cons_of_fits hfit]
      exact hone
    · rw [length_packFrom_cons_of_not_fits hfit]
      rfl

/-- The numbers of a leading block are one block of `Pack` or part of one. -/
theorem length_packAll_expandBlock_append (c : Block) (l : List Word16) (h : nonDescending l = true) :
    (packAll (expandBlock c ++ l)).length ≤ 1 + (packAll l).length := by
  have hfits : ∀ x ∈ (expandBlock c).tail, fitsBlock c.pid x = true := fun x hx =>
    fitsBlock_of_mem_expandBlock (List.mem_of_mem_tail hx)
  calc (packAll (expandBlock c ++ l)).length = (packFrom ⟨c.pid, 0⟩ ((expandBlock c).tail ++ l)).length := rfl
    _ = (packFrom ⟨c.pid, 0⟩ l).length := by
        rw [length_packFrom, length_packFrom, List.dropWhile_append_of_pos hfits]
    _ ≤ 1 + (packAll l).length := length_packFrom_le h

theorem length_packAll_expand_le {bs : List Block} (h : nonDescending (expand bs) = true) :
    (packAll (expand bs)).length ≤ bs.length := by
  induction bs with
  | nil => exact le_rfl
  | cons c cs ih =>
    have hcs : nonDescending (expand cs) = true := nonDescending_of_append (l₁ := expandBlock c) h
    calc (packAll (expandBlock c ++ expand cs)).length
        ≤ 1 + (packAll (expand cs)).length := length_packAll_expandBlock_append c _ hcs
      _ ≤ 1 + cs.length := Nat.add_le_add_left (ih hcs) 1
      _ = (c :: cs).length := by rw [List.length_cons, Nat.add_comm]

/-- Settles O50: by induction on the competing blocks, each of which costs `Pack` at most one block. -/
theorem packIsMinimal : Obligations.PackIsMinimal := by
  rintro _ bs other h hbs rfl
  obtain ⟨hn, rfl⟩ := pack_eq_some hbs
  exact length_packAll_expand_le hn

end Sys2Proof.Machine

/-! SUPPORT. The state invariants (10_state R32): every update keeps them, so every effect and every step does; what
they say of the registers; and that a step always answers where they hold (00_scope R6). -/

namespace Sys2Proof.Machine

/-! ## `ESR` and the responses (10_state R31; 00_scope R7) -/

theorem esrWith_getLsbD (esr : BitVec 4) (e e' : ErrorKind) :
    (esrWith esr e).getLsbD e'.esrBit = (esr.getLsbD e'.esrBit || decide (e = e')) := by
  revert esr
  cases e <;> cases e' <;> decide

theorem ErrorKind.status_ne_ok (e : ErrorKind) : e.status ≠ .ok := by
  cases e <;> decide

theorem ErrorKind.status_inj {e e' : ErrorKind} : e.status = e'.status ↔ e = e' := by
  cases e <;> cases e' <;> decide

/-- A status is `OK` or that of an error. -/
theorem Status.ok_or_error (st : Status) : st = .ok ∨ ∃ e : ErrorKind, st = e.status := by
  cases st with
  | ok => exact .inl rfl
  | boundaryError => exact .inr ⟨.boundaryError, rfl⟩
  | outOfBounds => exact .inr ⟨.outOfBounds, rfl⟩
  | invalidOrderError => exact .inr ⟨.invalidOrderError, rfl⟩
  | illegalCommand => exact .inr ⟨.illegalCommand, rfl⟩

theorem esr_eq_zero_iff (esr : BitVec 4) : esr = 0 ↔ ∀ e : ErrorKind, esr.getLsbD e.esrBit = false := by
  have hbits : ∀ v : BitVec 4, v.getLsbD 0 = false → v.getLsbD 1 = false → v.getLsbD 2 = false →
      v.getLsbD 3 = false → v = 0 := by decide
  constructor
  · rintro rfl e
    cases e <;> rfl
  · exact fun h => hbits esr (h .boundaryError) (h .outOfBounds) (h .invalidOrderError) (h .illegalCommand)

/-- Settles O18: `ESR` has a bit for each status that is not `OK`. -/
theorem esrZeroExactlyWhenAllOk : Obligations.EsrZeroExactlyWhenAllOk := by
  intro s hs
  have hbit (e : ErrorKind) : s.esr.getLsbD e.esrBit = false ↔ ∀ r ∈ s.rsps, r.status ≠ e.status := by
    rw [← Bool.not_eq_true, hs.esr e]
    push Not
    rfl
  simp only [esr_eq_zero_iff, hbit]
  constructor
  · intro h r hr
    rcases r.status.ok_or_error with hok | ⟨e, he⟩
    · exact hok
    · exact absurd he (h e r hr)
  · intro h e r hr
    rw [h r hr]
    exact e.status_ne_ok.symm

/-! ## The counters after a store (43_nack_run R148) -/

/-- The store lies in the region, so `WOFF` does not wrap. -/
theorem State.stored_woff_toNat {s : State} (hin : s.woff.toNat + 4 ≤ s.rlen.toNat) :
    s.stored.woff.toNat = s.woff.toNat + 4 := by
  have hlen := s.rlen.isLt
  exact BitVec.toNat_add_of_lt (y := 4#16) (show s.woff.toNat + 4 < 2 ^ 16 by omega)

theorem State.stored_blkcnt_toNat {s : State} (hin : s.woff.toNat + 4 ≤ s.rlen.toNat) (hcount : s.countOk) :
    s.stored.blkcnt.toNat = s.blkcnt.toNat + 1 := by
  have hlen := s.rlen.isLt
  have hcount : 4 * s.blkcnt.toNat ≤ s.woff.toNat := hcount
  exact BitVec.toNat_add_of_lt (y := 1#16) (show s.blkcnt.toNat + 1 < 2 ^ 16 by omega)

/-! ## The updates keep the invariants -/

namespace State.Inv

variable {s : State} (h : s.Inv)
include h

theorem popEvent : s.popEvent.Inv := { h with }

theorem respond (d : List DataPair) : (s.respond d).Inv where
  __ := h
  esr e := by
    rw [respond_esr, respond_rsps, h.esr e]
    simp [e.status_ne_ok.symm]

theorem raise (e : ErrorKind) : (s.raise e).Inv where
  __ := h
  esr e' := by
    rw [raise_esr, raise_rsps, esrWith_getLsbD, Bool.or_eq_true, h.esr e', decide_eq_true_eq, ← ErrorKind.status_inj]
    simp [or_and_right, exists_or]

theorem setRegion {base len : Word16} (hfit : base.toNat + len.toNat ≤ s.memBytes) : (s.setRegion base len).Inv where
  __ := h
  region := hfit
  cursor := ⟨Nat.zero_le _, fun _ => rfl⟩

theorem setCursor {byte : Word16} {bit : BitVec 3} (hin : 8 * byte.toNat + bit.toNat ≤ 8 * s.rlen.toNat) :
    (s.setCursor byte bit).Inv where
  __ := h
  cursor := by
    refine ⟨?_, fun heq => BitVec.eq_of_toNat_eq ?_⟩
    · show byte.toNat ≤ s.rlen.toNat
      omega
    · have hbyte : byte.toNat = s.rlen.toNat := congrArg BitVec.toNat heq
      show bit.toNat = 0
      omega

theorem advance {n : Nat} (ha : s.admits n) : (s.advance n).Inv := by
  obtain ⟨-, hbit, hbyte⟩ := ha
  have hlen := s.rlen.isLt
  have hpos := bitPos_advance (s := s) (n := n) (by omega) hbit
  unfold bitPos at hpos
  exact h.setCursor (show 8 * (s.advance n).byteIdx.toNat + (s.advance n).bitIdx.toNat ≤ 8 * s.rlen.toNat by omega)

theorem memWrite {a n v : Nat} (hin : a + n ≤ s.memBytes) : (s.memWrite a n v).Inv where
  __ := h
  mem := by
    obtain ⟨hwf, hlt⟩ := h.mem
    refine ⟨Memory.wf_writeBE _ _ _ _ hwf, fun c hc => ?_⟩
    rcases Memory.mem_writeBE hc with hc | ⟨-, hc⟩
    · exact hlt c hc
    · exact lt_of_lt_of_le hc hin

theorem startRun (off : Word16) : (s.startRun off).Inv where
  __ := h
  encoder := fun hv => absurd hv (show ¬ (0 : Bit) = 1 by decide)
  count := Nat.zero_le _

theorem openBlock (sn : Word16) : (s.openBlock sn).Inv where
  __ := h
  encoder := fun _ => Block.tracks_start sn

theorem extendBlock {sn : Word16} (hv : s.eValid = 1) (ho : seqOrder s.eLast sn = .follows)
    (h16 : (seqSub sn s.ePid).toNat ≤ 16) : (s.extendBlock (seqSub sn s.ePid).toNat sn).Inv where
  __ := h
  encoder := fun _ =>
    ((encoderOk_iff_tracks s).1 h.encoder hv).join ho h16

theorem closeBlock : s.closeBlock.Inv where
  __ := h
  encoder := fun hv => absurd hv (show ¬ (0 : Bit) = 1 by decide)

theorem stored (hreach : s.reaches s.woff.toNat 4) : s.stored.Inv where
  __ := h.memWrite (v := s.openedBlock.toNat) hreach.2
  count := by
    have hcount : 4 * s.blkcnt.toNat ≤ s.woff.toNat := h.count
    show 4 * s.stored.blkcnt.toNat ≤ s.stored.woff.toNat
    rw [stored_woff_toNat hreach.1, stored_blkcnt_toNat hreach.1 hcount]
    omega

/-- A command's effect keeps the invariants. -/
theorem effect {i : Instr} {u : State} {d : List DataPair} (he : Effect i s u d) : u.Inv := by
  cases i with
  | rgnSet =>
    obtain ⟨hfit, rfl, -⟩ := he
    exact h.setRegion hfit
  | curSeek =>
    obtain ⟨hin, rfl, -⟩ := he
    exact h.setCursor hin
  | regRd =>
    obtain ⟨-, -, rfl, -⟩ := he
    exact h
  | memRdb | nbDec =>
    obtain ⟨-, rfl, -⟩ := he
    exact h
  | nrDec =>
    obtain ⟨-, -, rfl, -⟩ := he
    exact h
  | memWrb | nbEnc =>
    obtain ⟨⟨-, hex⟩, rfl, -⟩ := he
    exact h.memWrite hex
  | bitRd | bitRdb =>
    obtain ⟨ha, -, rfl, -⟩ := he
    exact h.advance ha
  | bitWr =>
    obtain ⟨ha, ⟨-, hex⟩, -, rfl⟩ := he
    exact (h.memWrite hex).advance ha
  | nrStart off =>
    obtain ⟨rfl, -⟩ := he
    exact h.startRun off
  | nrPush sn =>
    obtain ⟨-, rfl, -⟩ | ⟨-, -, rfl, -⟩ | ⟨hv, ho, h16, rfl, -⟩ | ⟨-, -, -, hreach, rfl, -⟩ := he
    · exact h.openBlock sn
    · exact h
    · exact h.extendBlock hv ho h16
    · exact (h.stored hreach).openBlock sn
  | nrFlush =>
    obtain ⟨-, rfl, -⟩ | ⟨-, hreach, rfl, -⟩ := he
    · exact h
    · exact (h.stored hreach).closeBlock

theorem exec {i : Instr} {t : State} (ht : exec i s = .next t) : t.Inv := by
  rcases exec_cases ht with ⟨u, d, he, rfl⟩ | ⟨e, -, rfl⟩
  · exact (h.effect he).respond d
  · exact h.raise e

end State.Inv

/-- Every register 0, nothing listed, no response sent: the reset state, and any after a reset event (10_state R36). -/
theorem State.inv_of_reset_registers {m r : Nat} {l : List PortEvent} (hm : 1 ≤ m ∧ m ≤ 65535) :
    State.Inv { State.reset with memBytes := m, resets := r, inputs := l } where
  param := hm
  mem := ⟨List.Pairwise.nil, fun _ hc => nomatch hc⟩
  region := Nat.zero_le _
  cursor := ⟨le_rfl, fun _ => rfl⟩
  encoder := fun hv => absurd hv (show ¬ (0 : Bit) = 1 by decide)
  count := le_rfl
  esr := fun e => by cases e <;> simp [reset, ErrorKind.esrBit]

/-- Settles O10: a step idles, resets, or runs or rejects a command word, and each keeps the invariants. -/
theorem stepKeepsInvariants : Obligations.StepKeepsInvariants := by
  intro s t h ht
  rcases step_cases ht with ⟨-, rfl⟩ | ⟨-, -, rfl⟩ | ⟨-, -, i, -, -, hexec⟩ | ⟨-, -, -, -, -, rfl⟩
  · exact h
  · exact State.inv_of_reset_registers h.param
  · exact h.popEvent.exec hexec
  · exact h.popEvent.raise .illegalCommand

/-! ## What the invariants say of the registers -/

/-- Settles O12: I1; I2 and I3 together; I5 from its stronger form; I4 (a) and (b). -/
theorem invariantsBoundRegisters : Obligations.InvariantsBoundRegisters := by
  intro s h
  refine ⟨h.region, ?_, ?_, fun hv => ?_⟩
  · obtain ⟨hle, hend⟩ := h.cursor
    have hbit := s.bitIdx.isLt
    rcases Nat.lt_or_eq_of_le hle with hlt | heq
    · omega
    · have hzero : s.bitIdx.toNat = 0 := congrArg BitVec.toNat (hend (BitVec.eq_of_toNat_eq heq))
      omega
  · have hcount : 4 * s.blkcnt.toNat ≤ s.woff.toNat := h.count
    have hwoff := s.woff.isLt
    omega
  · obtain ⟨hlast, hbits, -⟩ := h.encoder hv
    exact ⟨hlast, hbits⟩

/-! ## A step always answers (00_scope R6) -/

theorem exec_bitRd_completes {s : State} (hr : s.regionOk) (n : BitVec 8) : ∃ t, exec (.bitRd n) s = .next t := by
  rcases s.bitCheck_cases n.toNat with ⟨hb, -⟩ | ⟨h1, h2, h3, -⟩ | ⟨h1, h2, h3, -⟩
  · exact ⟨_, exec_bitRd_boundaryError (by omega)⟩
  · exact ⟨_, exec_bitRd_outOfBounds h1 h2 h3⟩
  · exact ⟨_, exec_bitRd_admitted hr ⟨h1, h2, h3⟩⟩

theorem exec_bitWr_completes {s : State} (hr : s.regionOk) (n : BitVec 8) (val : Byte) :
    ∃ t, exec (.bitWr n val) s = .next t := by
  rcases s.bitCheck_cases n.toNat with ⟨hb, -⟩ | ⟨h1, h2, h3, -⟩ | ⟨h1, h2, h3, -⟩
  · exact ⟨_, exec_bitWr_boundaryError (by omega)⟩
  · exact ⟨_, exec_bitWr_outOfBounds h1 h2 h3⟩
  · exact ⟨_, exec_bitWr_admitted hr ⟨h1, h2, h3⟩⟩

theorem exec_nrPush_completes {s : State} (hr : s.regionOk) (sn : Word16) : ∃ t, exec (.nrPush sn) s = .next t := by
  by_cases hv : s.eValid = 0
  · exact ⟨_, exec_nrPush_noBlock hv⟩
  have hv := bit_eq_one hv
  cases ho : seqOrder s.eLast sn with
  | repeats => exact ⟨_, exec_nrPush_repeats hv (seqOrder_repeats.1 ho).symm⟩
  | outOfOrder => exact ⟨_, exec_nrPush_outOfOrder hv ho⟩
  | follows =>
    rcases Nat.lt_or_ge 16 (seqSub sn s.ePid).toNat with h16 | h16
    · rcases Nat.lt_or_ge s.rlen.toNat (s.woff.toNat + 4) with hroom | hroom
      · exact ⟨_, exec_nrPush_outOfBounds hv ho h16 hroom⟩
      · exact ⟨_, exec_nrPush_stores hv ho h16 hroom hr⟩
    · exact ⟨_, exec_nrPush_extends hv ho h16⟩

theorem exec_nrFlush_completes {s : State} (hr : s.regionOk) : ∃ t, exec .nrFlush s = .next t := by
  by_cases hv : s.eValid = 0
  · exact ⟨_, exec_nrFlush_noBlock hv⟩
  · rcases Nat.lt_or_ge s.rlen.toNat (s.woff.toNat + 4) with hroom | hroom
    · exact ⟨_, exec_nrFlush_outOfBounds (bit_eq_one hv) hroom⟩
    · exact ⟨_, exec_nrFlush_stores (bit_eq_one hv) hroom hr⟩

/-- Where I1 holds every command answers a next state. -/
theorem exec_completes {s : State} (hr : s.regionOk) (i : Instr) : ∃ t, exec i s = .next t := by
  cases i with
  | rgnSet base len => exact ⟨_, rfl⟩
  | curSeek byte bit =>
    rcases Nat.lt_or_ge (8 * s.rlen.toNat) (8 * byte.toNat + bit.toNat) with h | h
    · exact ⟨_, exec_curSeek_outOfBounds h⟩
    · exact ⟨_, exec_curSeek_inBounds h⟩
  | regRd idx =>
    cases hv : s.regValue idx.toNat with
    | some v => exact ⟨_, exec_regRd_of_regValue hv⟩
    | none => exact ⟨s.raise .illegalCommand, by rw [exec, execRegRd, hv, State.conclude_raised]⟩
  | memRdb off =>
    rcases Nat.lt_or_ge off.toNat s.rlen.toNat with h | h
    · exact ⟨_, exec_memRdb_inBounds hr h⟩
    · exact ⟨_, exec_memRdb_outOfBounds h⟩
  | memWrb off val =>
    rcases Nat.lt_or_ge off.toNat s.rlen.toNat with h | h
    · exact ⟨_, exec_memWrb_inBounds hr h⟩
    · exact ⟨_, exec_memWrb_outOfBounds h⟩
  | bitRd n => exact exec_bitRd_completes hr n
  | bitRdb => exact exec_bitRdb s ▸ exec_bitRd_completes hr 1
  | bitWr n val => exact exec_bitWr_completes hr n val
  | nbDec off =>
    rcases Nat.lt_or_ge s.rlen.toNat (off.toNat + 4) with h | h
    · exact ⟨_, exec_nbDec_outOfBounds h⟩
    · exact ⟨_, exec_nbDec_inBounds hr h⟩
  | nbEnc off pid blp =>
    rcases Nat.lt_or_ge s.rlen.toNat (off.toNat + 4) with h | h
    · exact ⟨_, exec_nbEnc_outOfBounds h⟩
    · exact ⟨_, exec_nbEnc_inBounds hr h⟩
  | nrDec off len =>
    by_cases h : len.toNat % 4 ≠ 0 ∨ s.rlen.toNat < off.toNat + len.toNat
    · exact ⟨_, exec_nrDec_outOfBounds h⟩
    · exact ⟨_, exec_nrDec_inBounds hr (by omega) (by omega)⟩
  | nrStart off => exact ⟨_, rfl⟩
  | nrPush sn => exact exec_nrPush_completes hr sn
  | nrFlush => exact exec_nrFlush_completes hr

theorem execWord_completes {s : State} (hr : s.regionOk) (w : CmdWord) : ∃ t, execWord w s = .next t := by
  unfold execWord
  cases decode w with
  | ok i => exact exec_completes hr i
  | error e => exact ⟨_, rfl⟩

/-- Settles O11: idle and reset always answer, and a command word does where I1 holds. -/
theorem stepNeverStops : Obligations.StepNeverStops := by
  intro s h
  rcases hi : s.inputs with _ | ⟨w | _, rest⟩
  · exact ⟨_, step_idle hi⟩
  · rw [step_command hi]
    exact execWord_completes h.popEvent.region w
  · exact ⟨_, step_reset hi⟩

/-! ## The step, reset and idle (10_state R36; 70_reset R190, R191) -/

/-- Settles O7: the step takes the word from the port and runs what it decodes to. -/
theorem stepRunsDecodedCommand : Obligations.StepRunsDecodedCommand := by
  intro s w rest i hi hdec
  have hpop : s.popEvent = { s with inputs := rest } := by rw [State.popEvent, hi, List.tail_cons]
  rw [step_command hi, execWord, hdec, hpop]

/-- Settles O8: the reset event empties the listing, so every byte reads as the free value of the next reset. -/
theorem resetEventAndIdle : Obligations.ResetEventAndIdle := by
  refine ⟨fun s rest hi => ⟨_, step_reset hi, ?_, fun a => rfl⟩, fun s hi => step_idle hi⟩
  rw [State.applyReset, State.popEvent_inputs, hi]
  rfl

/-- Settles O9: the registers are read off, and the invariants are those of zero registers. -/
theorem resetState : Obligations.ResetState := by
  have hbytes : 1 ≤ Config.memBytes ∧ Config.memBytes ≤ 65535 := by
    have := Config.memBytesLessOne.isLt
    unfold Config.memBytes
    omega
  exact ⟨rfl, rfl, rfl, rfl, rfl, rfl, rfl, rfl, rfl, rfl, rfl, rfl, fun _ => rfl,
    State.inv_of_reset_registers hbytes⟩

end Sys2Proof.Machine

/-! SUPPORT. Frames over all commands: the statuses each can return (60_exceptions R184), the registers it can write
(10_state R33), and the bytes it can write or learn (20_memory R57; 70_reset R193). -/

namespace Sys2Proof.Machine

/-! ## Statuses (60_exceptions R184) -/

/-- The one response of a command carries `OK` or an error of its row. -/
theorem status_mem_of_exec {i : Instr} {s t : State} {r : Response} (h : exec i s = .next t)
    (hr : t.rsps = s.rsps ++ [r]) : r.status ∈ Status.ok :: (raisable i.mnemonic).map ErrorKind.status := by
  rcases exec_cases h with ⟨u, d, he, rfl⟩ | ⟨e, hmem, rfl⟩
  · obtain ⟨-, hrsps⟩ := he.keeps_esr_rsps
    obtain rfl : ⟨.ok, d⟩ = r := by simpa [hrsps] using hr
    exact List.mem_cons_self
  · obtain rfl : ⟨e.status, []⟩ = r := by simpa using hr
    exact List.mem_cons_of_mem _ (List.mem_map_of_mem hmem)

/-- Settles O15: the table's rows are `OK` and the errors each command can raise. -/
theorem statusesCommandsCanReturn : Obligations.StatusesCommandsCanReturn := by
  intro i s t r h hr
  have hmem := status_mem_of_exec h hr
  cases i with
  | nrPush =>
    simp only [Instr.mnemonic, raisable, List.map_cons, List.map_nil, ErrorKind.status, List.mem_cons] at hmem ⊢
    tauto
  | _ => exact hmem

/-! ## Registers (10_state R33) -/

/-- Settles O16: the fields each effect writes; responding and raising write `ESR` and the responses alone. -/
theorem registerWriters : Obligations.RegisterWriters := by
  intro i s t h
  rcases exec_cases h with ⟨u, d, he, rfl⟩ | ⟨e, -, rfl⟩
  case inr => simp
  cases i with
  | rgnSet | curSeek | memRdb | memWrb | nbDec | nbEnc =>
    obtain ⟨-, rfl, -⟩ := he
    simp [Instr.mnemonic]
  | regRd | bitRd | bitRdb | nrDec =>
    obtain ⟨-, -, rfl, -⟩ := he
    simp [Instr.mnemonic]
  | bitWr =>
    obtain ⟨-, -, -, rfl⟩ := he
    simp [Instr.mnemonic]
  | nrStart =>
    obtain ⟨rfl, -⟩ := he
    simp [Instr.mnemonic]
  | nrPush =>
    obtain ⟨-, rfl, -⟩ | ⟨-, -, rfl, -⟩ | ⟨-, -, -, rfl, -⟩ | ⟨-, -, -, -, rfl, -⟩ := he <;>
      simp [Instr.mnemonic, State.stored]
  | nrFlush =>
    obtain ⟨-, rfl, -⟩ | ⟨-, -, rfl, -⟩ := he <;> simp [Instr.mnemonic, State.stored]

/-! ## Bytes written (20_memory R57) -/

/-- An effect leaves the memory alone or is one store inside the region. -/
theorem Effect.mem_cases {i : Instr} {s u : State} {d : List DataPair} (h : Effect i s u d) :
    u.mem = s.mem ∨ ∃ off n v, 1 ≤ n ∧ s.reaches off n ∧ u.mem = (s.memWrite (s.rbase.toNat + off) n v).mem := by
  cases i with
  | rgnSet | curSeek | memRdb | nbDec =>
    obtain ⟨-, rfl, -⟩ := h
    exact .inl rfl
  | regRd | bitRd | bitRdb | nrDec =>
    obtain ⟨-, -, rfl, -⟩ := h
    exact .inl rfl
  | nrStart =>
    obtain ⟨rfl, -⟩ := h
    exact .inl rfl
  | memWrb off | nbEnc off =>
    obtain ⟨hreach, rfl, -⟩ := h
    exact .inr ⟨off.toNat, _, _, by decide, hreach, rfl⟩
  | bitWr =>
    obtain ⟨-, hreach, -, rfl⟩ := h
    exact .inr ⟨s.byteIdx.toNat, 1, _, le_rfl, hreach, rfl⟩
  | nrPush =>
    obtain ⟨-, rfl, -⟩ | ⟨-, -, rfl, -⟩ | ⟨-, -, -, rfl, -⟩ | ⟨-, -, -, hreach, rfl, -⟩ := h
    · exact .inl rfl
    · exact .inl rfl
    · exact .inl rfl
    · exact .inr ⟨s.woff.toNat, 4, _, by decide, hreach, rfl⟩
  | nrFlush =>
    obtain ⟨-, rfl, -⟩ | ⟨-, hreach, rfl, -⟩ := h
    · exact .inl rfl
    · exact .inr ⟨s.woff.toNat, 4, _, by decide, hreach, rfl⟩

/-- The same of a command, which may also raise. -/
theorem exec_mem_cases {i : Instr} {s t : State} (h : exec i s = .next t) :
    t.mem = s.mem ∨ ∃ off n v, 1 ≤ n ∧ s.reaches off n ∧ t.mem = (s.memWrite (s.rbase.toNat + off) n v).mem := by
  rcases exec_cases h with ⟨u, d, he, rfl⟩ | ⟨e, -, rfl⟩
  · exact he.mem_cases
  · exact .inl rfl

/-- Settles O19: a store inside the region leaves the bytes outside it alone. -/
theorem bytesOutsideRegionKept : Obligations.BytesOutsideRegionKept := by
  intro i s t a h hout
  obtain ⟨-, hres, -⟩ := registerWriters i s t h
  rcases exec_mem_cases h with hmem | ⟨off, n, v, -, ⟨hin, -⟩, hmem⟩
  · exact State.byteAt_congr hmem hres a
  · rw [State.byteAt_congr (t := s.memWrite _ n v) hmem hres a, State.byteAt_memWrite_of_outside (by omega)]

theorem exec_keeps_mem_of_empty {i : Instr} {s t : State} (h : exec i s = .next t) (hlen : s.rlen.toNat = 0) :
    t.mem = s.mem := by
  rcases exec_mem_cases h with hmem | ⟨off, n, v, hn, ⟨hin, -⟩, -⟩
  · exact hmem
  · omega

/-! ## Bytes read (20_memory R57) -/

/-- The state with another memory. -/
def State.withMem (s : State) (m : Memory) : State := { s with mem := m }

/-- `u'` is `u` with another memory, and they read alike in the region of `s`. -/
def State.Alike (s u u' : State) : Prop :=
  (∃ m, u' = u.withMem m) ∧ ∀ a, s.rbase.toNat ≤ a → a < s.rbase.toNat + s.rlen.toNat → u'.byteAt a = u.byteAt a

/-- Two computations stop for the same reason, or give related values. -/
inductive BothEnd {α : Type} (R : α → α → Prop) : Except Stop α → Except Stop α → Prop
  | ok {a b : α} (h : R a b) : BothEnd R (.ok a) (.ok b)
  | error (e : Stop) : BothEnd R (.error e) (.error e)

namespace BothEnd

variable {α β : Type}

theorem of_eq {x y : Except Stop α} (h : x = y) : BothEnd Eq x y := by
  subst h
  cases x with
  | ok a => exact .ok rfl
  | error e => exact .error e

theorem bind {R : α → α → Prop} {S : β → β → Prop} {x y : Except Stop α} {f g : α → Except Stop β} (h : BothEnd R x y)
    (hfg : ∀ a b, R a b → BothEnd S (f a) (g b)) : BothEnd S (x >>= f) (y >>= g) := by
  cases h with
  | ok h => exact hfg _ _ h
  | error e => exact .error e

end BothEnd

/-- Two bodies stop for the same reason, or work out like states and the same data. -/
abbrev State.AlikeResults (s : State) : Result → Result → Prop := BothEnd fun p q => s.Alike p.1 q.1 ∧ p.2 = q.2

namespace State.Alike

variable {s u u' : State}

/-- An update that neither reads nor writes the memory. -/
theorem map (h : s.Alike u u') (f : State → State)
    (hmem : ∀ v m, f (v.withMem m) = (f v).withMem m := by intros; rfl)
    (hbyte : ∀ v a, (f v).byteAt a = v.byteAt a := by intros; rfl) : s.Alike (f u) (f u') := by
  obtain ⟨⟨m, rfl⟩, hbytes⟩ := h
  exact ⟨⟨m, hmem u m⟩, fun a h1 h2 => by rw [hbyte, hbyte, hbytes a h1 h2]⟩

/-- A body that ends in such an update, with data of its own. -/
theorem result (h : s.Alike u u') (d : List DataPair) : s.AlikeResults (.ok (u, d)) (.ok (u', d)) := .ok ⟨h, rfl⟩

theorem rgnRead (h : s.Alike s u') (off n : Nat) : BothEnd Eq (s.rgnRead off n) (u'.rgnRead off n) := by
  obtain ⟨⟨m, rfl⟩, hbytes⟩ := h
  refine .of_eq ?_
  have haddr : (s.withMem m).rgnAddr off n = s.rgnAddr off n := rfl
  rw [State.rgnRead, State.rgnRead, haddr]
  rcases s.rgnAddr_cases off n with ⟨-, e⟩ | ⟨hin, -, e⟩ | ⟨-, -, e⟩
  · rw [e, error_bind, error_bind]
  · have hread : s.memRead (s.rbase.toNat + off) n = (s.withMem m).memRead (s.rbase.toNat + off) n :=
      memRead_of_bytes fun b h1 h2 => (hbytes b (by omega) (by omega)).symm
    rw [e, ok_bind, ok_bind, hread]
  · rw [e, error_bind, error_bind]

theorem rgnWrite (h : s.Alike s u') (off n v : Nat) : BothEnd s.Alike (s.rgnWrite off n v) (u'.rgnWrite off n v) := by
  obtain ⟨⟨m, rfl⟩, hbytes⟩ := h
  have haddr : (s.withMem m).rgnAddr off n = s.rgnAddr off n := rfl
  refine .bind (.of_eq haddr.symm) ?_
  rintro a _ rfl
  refine .ok ⟨⟨_, rfl⟩, fun b h1 h2 => ?_⟩
  rw [byteAt_memWrite, byteAt_memWrite, hbytes b h1 h2]

theorem readBlock (h : s.Alike s u') (off : Nat) : BothEnd Eq (s.readBlock off) (u'.readBlock off) := by
  refine (h.rgnRead off 4).bind ?_
  rintro w _ rfl
  exact .ok rfl

theorem readBlocks (h : s.Alike s u') (off k : Nat) : BothEnd Eq (s.readBlocks off k) (u'.readBlocks off k) := by
  induction k generalizing off with
  | zero => exact .ok rfl
  | succ k ih =>
    refine (h.readBlock off).bind ?_
    rintro b _ rfl
    refine (ih (off + 4)).bind ?_
    rintro bs _ rfl
    exact .ok rfl

theorem storeBlock (h : s.Alike s u') : BothEnd s.Alike s.storeBlock u'.storeBlock := by
  have hwrite := h.rgnWrite s.woff.toNat 4 s.openedBlock.toNat
  obtain ⟨⟨m, rfl⟩, -⟩ := h
  exact hwrite.bind fun a b hab => .ok (hab.map countBlock)

theorem pushFollowing (h : s.Alike s u') (sn : Word16) : s.AlikeResults (s.pushFollowing sn) (u'.pushFollowing sn) := by
  have hstore := h.storeBlock
  have hextend := h.map (fun v => v.extendBlock (seqSub sn v.ePid).toNat sn)
  obtain ⟨⟨m, rfl⟩, -⟩ := h
  have hpid : (s.withMem m).ePid = s.ePid := rfl
  rw [State.pushFollowing, State.pushFollowing, hpid]
  split
  · exact hextend.result []
  · exact hstore.bind fun a b hab => (hab.map (openBlock · sn)).result _

/-- Ending a command keeps the likeness (60_exceptions R173). -/
theorem conclude (h : s.Alike s u') {r r' : Result} {t : State} (hr : s.AlikeResults r r')
    (ht : s.conclude r = .next t) : ∃ t', u'.conclude r' = .next t' ∧ s.Alike t t' := by
  cases hr with
  | @ok p q hpq =>
    obtain ⟨p, d⟩ := p
    obtain ⟨q, d'⟩ := q
    obtain ⟨hlike, rfl⟩ := hpq
    obtain rfl : p.respond d = t := by simpa using ht
    exact ⟨q.respond d, rfl, hlike.map (respond · d)⟩
  | error e =>
    cases e with
    | raised e =>
      obtain rfl : s.raise e = t := by simpa using ht
      exact ⟨u'.raise e, rfl, h.map (raise · e)⟩
    | faulted f => cases ht

end State.Alike

/-- A body that reads the region and then works out its result from what it read. -/
theorem State.AlikeResults.of_read {α : Type} {s : State} {x y : Except Stop α} {f g : α → Result} (h : BothEnd Eq x y)
    (hfg : ∀ a, s.AlikeResults (f a) (g a)) : s.AlikeResults (x >>= f) (y >>= g) :=
  h.bind fun a _ hab => hab ▸ hfg a

/-- A command does the same to states that are alike in the region. -/
theorem exec_alike {i : Instr} {s s' t : State} (hs : s.Alike s s') (h : exec i s = .next t) :
    ∃ t', exec i s' = .next t' ∧ s.Alike t t' := by
  have hread := hs.rgnRead
  have hwrite := hs.rgnWrite
  have hblock := hs.readBlock
  have hblocks := hs.readBlocks
  have hstore := hs.storeBlock
  have hpush := hs.pushFollowing
  obtain ⟨m, rfl⟩ := hs.1
  cases i with
  | rgnSet base len =>
    obtain rfl := Host.Outcome.next.inj h
    refine ⟨_, rfl, ?_⟩
    have hbytes : (s.withMem m).memBytes = s.memBytes := rfl
    rw [hbytes]
    split
    · exact hs.map (State.raise · _)
    · exact hs.map (fun v => (v.setRegion base len).respond [])
  | curSeek byte bit =>
    refine hs.conclude ?_ h
    have hlen : (s.withMem m).rlen = s.rlen := rfl
    rw [hlen]
    split
    · exact .error _
    · exact (hs.map (State.setCursor · byte bit)).result []
  | regRd idx =>
    refine hs.conclude ?_ h
    have hreg : (s.withMem m).regValue idx.toNat = s.regValue idx.toNat := rfl
    rw [hreg]
    split
    · exact hs.result _
    · exact .error _
  | memRdb off => exact hs.conclude (.of_read (hread off.toNat 1) fun _ => hs.result _) h
  | memWrb off val => exact hs.conclude ((hwrite off.toNat 1 val.toNat).bind fun _ _ hab => hab.result []) h
  | bitRd n =>
    exact hs.conclude (.of_read (.of_eq rfl) fun _ => .of_read (hread s.byteIdx.toNat 1) fun _ =>
      (hs.map (State.advance · n.toNat)).result _) h
  | bitRdb =>
    exact hs.conclude (.of_read (.of_eq rfl) fun _ => .of_read (hread s.byteIdx.toNat 1) fun _ =>
      (hs.map (State.advance · 1)).result _) h
  | bitWr n val =>
    exact hs.conclude (.of_read (.of_eq rfl) fun _ => .of_read (hread s.byteIdx.toNat 1) fun _ =>
      (hwrite s.byteIdx.toNat 1 _).bind fun _ _ hab =>
        (hab.map (State.advance · n.toNat)).result []) h
  | nbDec off => exact hs.conclude (.of_read (hblock off.toNat) fun _ => hs.result _) h
  | nbEnc off pid blp =>
    exact hs.conclude ((hwrite off.toNat 4 (Block.mk pid blp).toNat).bind fun _ _ hab => hab.result []) h
  | nrDec off len =>
    refine hs.conclude ?_ h
    have hlen : (s.withMem m).rlen = s.rlen := rfl
    rw [hlen]
    split
    · exact .error _
    · split
      · exact .error _
      · exact .of_read (hblocks off.toNat (len.toNat / 4)) fun _ => hs.result _
  | nrStart off => exact hs.conclude ((hs.map (State.startRun · off)).result []) h
  | nrPush sn =>
    refine hs.conclude ?_ h
    have hv : (s.withMem m).eValid = s.eValid := rfl
    have hlast : (s.withMem m).eLast = s.eLast := rfl
    rw [hv, hlast]
    split
    · exact (hs.map (State.openBlock · sn)).result []
    · cases seqOrder s.eLast sn with
      | repeats => exact hs.result []
      | outOfOrder => exact .error _
      | follows => exact hpush sn
  | nrFlush =>
    refine hs.conclude ?_ h
    have hv : (s.withMem m).eValid = s.eValid := rfl
    rw [hv]
    split
    · exact hs.result []
    · exact hstore.bind fun _ _ hab => (hab.map State.closeBlock).result _

/-- Settles O20: a command does the same to both states, which stay alike in the region. -/
theorem bytesOutsideRegionUnseen : Obligations.BytesOutsideRegionUnseen := by
  intro i s t m h hagree
  obtain ⟨u, hu, ⟨m', rfl⟩, hbytes⟩ := exec_alike ⟨⟨m, rfl⟩, hagree⟩ h
  exact ⟨_, hu, rfl, hbytes⟩

/-! ## The empty region (70_reset R193) -/

/-- With no byte in the region, any memory will do. -/
theorem exec_withMem_of_empty {i : Instr} {s t : State} (hlen : s.rlen.toNat = 0) (h : exec i s = .next t)
    (m : Memory) : exec i (s.withMem m) = .next (t.withMem m) := by
  have halike : s.Alike s (s.withMem m) := ⟨⟨m, rfl⟩, fun a h1 h2 => by omega⟩
  obtain ⟨_, hu, ⟨m', rfl⟩, -⟩ := exec_alike halike h
  obtain rfl : m' = m := exec_keeps_mem_of_empty hu hlen
  exact hu

theorem exec_bit_fails_of_empty {s : State} (hlen : s.rlen.toNat = 0) (n : BitVec 8) (v : Byte) {i : Instr}
    (hi : i = .bitRd n ∨ i = .bitWr n v) : ∃ e : ErrorKind, exec i s = .next (s.raise e) := by
  rcases s.bitCheck_cases n.toNat with ⟨hb, -⟩ | ⟨h1, h2, h3, -⟩ | ⟨-, -, h3, -⟩
  · have hb : n.toNat = 0 ∨ 8 < n.toNat ∨ 8 < s.bitIdx.toNat + n.toNat := by omega
    rcases hi with rfl | rfl
    · exact ⟨_, exec_bitRd_boundaryError hb⟩
    · exact ⟨_, exec_bitWr_boundaryError hb⟩
  · rcases hi with rfl | rfl
    · exact ⟨_, exec_bitRd_outOfBounds h1 h2 h3⟩
    · exact ⟨_, exec_bitWr_outOfBounds h1 h2 h3⟩
  · omega

/-- The commands whose every access is of one byte or more at their operand or the cursor. -/
theorem exec_outOfBounds_of_empty {s : State} (hlen : s.rlen.toNat = 0) {i : Instr}
    (hi : i.mnemonic ∈ [.memRdb, .memWrb, .bitRdb, .nbDec, .nbEnc]) : exec i s = .next (s.raise .outOfBounds) := by
  cases i with
  | memRdb => exact exec_memRdb_outOfBounds (by omega)
  | memWrb => exact exec_memWrb_outOfBounds (by omega)
  | bitRdb =>
    rw [exec_bitRdb]
    exact exec_bitRd_outOfBounds (n := 1) le_rfl s.bitIdx.isLt (by omega)
  | nbDec => exact exec_nbDec_outOfBounds (by omega)
  | nbEnc => exact exec_nbEnc_outOfBounds (by omega)
  | _ => simp [Instr.mnemonic] at hi

/-- A run of no bytes at offset 0 decodes in every state. -/
theorem exec_nrDec_zero (s : State) : exec (.nrDec 0 0) s = .next (s.respond []) := by
  have hzero : (0 : Word16).toNat = 0 := rfl
  rw [exec, execNrDec, hzero, if_neg (by omega), if_neg (by omega)]
  rfl

/-- Settles O21: every bounds test fails on an empty region, and there is no byte to write or learn. -/
theorem emptyRegionReachesNoByte : Obligations.EmptyRegionReachesNoByte := by
  intro s hempty
  have hlen : s.rlen.toNat = 0 := congrArg BitVec.toNat hempty
  refine ⟨fun i => exec_outOfBounds_of_empty hlen, fun off len hpos => exec_nrDec_outOfBounds (.inr (by omega)),
    exec_nrDec_zero s, fun n i v hi => ?_, exec_nrFlush_noBlock, fun hv => exec_nrFlush_outOfBounds hv (by omega),
    fun sn hv h1 h2 h16 => exec_nrPush_outOfBounds hv (seqOrder_follows.2 ⟨h1, h2⟩) h16 (by omega),
    fun i t h a => ?_, fun i t m h => exec_withMem_of_empty hlen h m⟩
  · obtain ⟨e, he⟩ := exec_bit_fails_of_empty hlen n v hi
    exact ⟨_, _, he, rfl, e.status_ne_ok⟩
  · obtain ⟨-, hres, -⟩ := registerWriters i s t h
    exact State.byteAt_congr (exec_keeps_mem_of_empty h hlen) hres a

end Sys2Proof.Machine

/-! SUPPORT. Commands one after another, and what follows for the bit cursor (41_bit_cursor R115) and for blocks
(42_nack_block R134). -/

namespace Sys2Proof.Machine

/-! ## A run of commands -/

theorem runCommands_cons {i : Instr} {s t : State} (h : exec i s = .next t) (is : List Instr) :
    runCommands (i :: is) s = runCommands is t := by
  rw [runCommands, h]

theorem runCommands_append {is : List Instr} {s t : State} (h : runCommands is s = .next t) (js : List Instr) :
    runCommands (is ++ js) s = runCommands js t := by
  induction is generalizing s with
  | nil =>
    obtain rfl : s = t := Host.Outcome.next.inj h
    rfl
  | cons i is ih =>
    cases hi : exec i s with
    | next u =>
      rw [runCommands_cons hi] at h
      rw [List.cons_append, runCommands_cons hi, ih h]
    | fault f =>
      rw [runCommands, hi] at h
      cases h
    | refused r =>
      rw [runCommands, hi] at h
      cases h

/-! ## Fields of a byte (20_memory R52) -/

theorem readField_getLsbD (b : Byte) {k n : Nat} (h : k + n ≤ 8) (j : Nat) :
    (readField b k n).getLsbD j = (b.getLsbD (8 - k - n + j) && decide (j < n)) := by
  rw [readField, BitVec.getLsbD_and, BitVec.getLsbD_ushiftRight, lowOnes_getLsbD (by omega), fieldShift]

/-- A field written and read is the value's low bits. -/
theorem readField_writeField (old v : Byte) {k n : Nat} (h : k + n ≤ 8) :
    (readField (writeField old k n v) k n).toNat = v.toNat % 2 ^ n := by
  have hfield : readField (writeField old k n v) k n = v &&& lowOnes n := by
    apply BitVec.eq_of_getLsbD_eq
    intro j _
    rw [readField_getLsbD _ h, BitVec.getLsbD_and, lowOnes_getLsbD (by omega)]
    by_cases hj : j < n
    · rw [writeField_getLsbD _ _ _ _ _ h (by omega), if_pos (by omega), Nat.add_sub_cancel_left]
    · simp [hj]
  have hzero : readField v (8 - n) n = v &&& lowOnes n := by
    rw [readField, fieldShift, show 8 - (8 - n) - n = 0 by omega]
    rfl
  rw [hfield, ← hzero, readField_toNat _ _ _ (by omega), show 8 - (8 - n) - n = 0 by omega, Nat.pow_zero, Nat.div_one]

/-- Writing a field's own value changes no bit. -/
theorem writeField_readField (b : Byte) {k n : Nat} (h : k + n ≤ 8) : writeField b k n (readField b k n) = b := by
  apply BitVec.eq_of_getLsbD_eq
  intro j hj
  rw [writeField_getLsbD _ _ _ _ _ h hj, readField_getLsbD _ h]
  split
  · rw [show 8 - k - n + (j - (8 - k - n)) = j by omega, decide_eq_true (by omega), Bool.and_true]
  · rfl

/-! ## The cursor's laws (41_bit_cursor R115) -/

theorem valueData_zeroExtend (x : Byte) : valueData (x.zeroExtend 16) = ⟨0, BitVec.ofNat 16 x.toNat⟩ := by
  rw [BitVec.ofNat_toNat]
  rfl

/-- Seeking back to the place of an admitted access. -/
theorem exec_curSeek_back {s t : State} (hlen : t.rlen = s.rlen) (h : s.byteIdx.toNat < s.rlen.toNat) :
    exec (.curSeek s.byteIdx s.bitIdx) t = .next ((t.setCursor s.byteIdx s.bitIdx).respond []) := by
  have hbit := s.bitIdx.isLt
  exact exec_curSeek_inBounds (by rw [hlen]; omega)

/-- Settles O30: the read finds the byte `BIT.WR` stored, whose field is the value. -/
theorem readBackWrittenField : Obligations.ReadBackWrittenField := by
  intro s n v hr h1 h2 h3
  have ha : s.admits n.toNat := ⟨h1, h2, h3⟩
  refine ⟨_, (runCommands_cons (exec_bitWr_admitted hr ha) _).trans <|
    (runCommands_cons (exec_curSeek_back (by rfl) h3) _).trans <|
    runCommands_cons (exec_bitRd_admitted (by exact hr) (by exact ha)) _, ?_⟩
  simp [valueData_zeroExtend, State.byteAt_memWrite_one, readField_writeField _ _ h2]

/-- Settles O31: the field is written back into the byte it was read from. -/
theorem writeBackReadField : Obligations.WriteBackReadField := by
  intro s n hr h1 h2 h3
  have ha : s.admits n.toNat := ⟨h1, h2, h3⟩
  refine ⟨_, _, _, exec_bitRd_admitted hr ha, rfl, (runCommands_cons (exec_curSeek_back (by rfl) h3) _).trans <|
    runCommands_cons (exec_bitWr_admitted (by exact hr) (by exact ha)) _, fun a => ?_⟩
  simp only [State.byteAt_respond, State.byteAt_setCursor, State.byteAt_advance, State.byteAt_memWrite_one,
    State.respond_rbase, State.setCursor_rbase, State.advance_rbase, State.respond_byteIdx, State.setCursor_byteIdx,
    State.respond_bitIdx, State.setCursor_bitIdx, writeField_readField _ h2]
  split
  · rw [‹a = _›]
  · rfl

/-- The two accesses of one width test and move alike, whatever the state: they differ in memory and data alone. -/
theorem exec_bit_cases (s : State) (n : BitVec 8) (v : Byte) :
    exec (.bitRd n) s = exec (.bitWr n v) s ∨ ∃ d m, exec (.bitRd n) s = .next ((s.advance n.toNat).respond d) ∧
      exec (.bitWr n v) s = .next (((s.withMem m).advance n.toNat).respond []) := by
  rw [exec, exec, execBitRd, execBitWr]
  cases s.bitCheck n.toNat with
  | error e => exact .inl rfl
  | ok =>
    rw [State.rgnRead, ok_bind, ok_bind]
    cases haddr : s.rgnAddr s.byteIdx.toNat 1 with
    | error e => exact .inl rfl
    | ok a =>
      simp only [State.rgnWrite, haddr, ok_bind]
      exact .inr ⟨_, (s.memWrite a 1 _).mem, rfl, rfl⟩

/-- Settles O33: both end in the same failure, or both advance. -/
theorem readAndWriteMoveAlike : Obligations.ReadAndWriteMoveAlike := by
  intro s t u n v ht hu
  rcases exec_bit_cases s n v with heq | ⟨d, m, hrd, hwr⟩
  · obtain rfl := Host.Outcome.next.inj (ht.symm.trans (heq.trans hu))
    exact ⟨rfl, rfl, rfl, rfl⟩
  · obtain rfl := Host.Outcome.next.inj (ht.symm.trans hrd)
    obtain rfl := Host.Outcome.next.inj (hu.symm.trans hwr)
    refine ⟨rfl, rfl, rfl, ?_⟩
    rw [State.respond_rsps, State.respond_rsps, List.map_append, List.map_append]
    rfl

/-! ## Successive fields (41_bit_cursor R115 (d)) -/

/-- The values `vs` of fields of widths `ns` joined after `acc`, the first most significant. -/
def joinFields (acc : Nat) (ns : List (BitVec 8)) (vs : List Nat) : Nat :=
  (ns.zip vs).foldl (fun acc p => acc * 2 ^ p.1.toNat + p.2) acc

/-- Taking the next `n` bits of a byte down to bit `m`. -/
theorem join_next_field (b m n : Nat) : b / 2 ^ (m + n) * 2 ^ n + b / 2 ^ m % 2 ^ n = b / 2 ^ m := by
  rw [Nat.pow_add, ← Nat.div_div_eq_div_mul, Nat.mul_comm]
  exact Nat.div_add_mod _ _

/-- A read gives the byte's next `n` bits: what joins the bits before them to the bits down to their end. -/
theorem exec_bitRd_next_field {s : State} {n : BitVec 8} (hr : s.regionOk) (ha : s.admits n.toNat) :
    ∃ v, exec (.bitRd n) s = .next ((s.setCursor
        (if s.bitIdx.toNat + n.toNat = 8 then s.byteIdx + 1 else s.byteIdx)
        (if s.bitIdx.toNat + n.toNat = 8 then 0 else BitVec.ofNat 3 (s.bitIdx.toNat + n.toNat))).respond
          [⟨0, BitVec.ofNat 16 v⟩]) ∧
      v < 2 ^ n.toNat ∧
      (s.byteAt (s.rbase.toNat + s.byteIdx.toNat)).toNat / 2 ^ (8 - s.bitIdx.toNat) * 2 ^ n.toNat + v =
        (s.byteAt (s.rbase.toNat + s.byteIdx.toNat)).toNat / 2 ^ (8 - (s.bitIdx.toNat + n.toNat)) := by
  have ⟨_, h2, _⟩ := ha
  have hread := exec_bitRd_admitted hr ha
  rw [ha.advance, valueData_zeroExtend, readField_toNat _ _ _ h2, Nat.sub_sub] at hread
  have hjoin := join_next_field (s.byteAt (s.rbase.toNat + s.byteIdx.toNat)).toNat
    (8 - (s.bitIdx.toNat + n.toNat)) n.toNat
  rw [show 8 - (s.bitIdx.toNat + n.toNat) + n.toNat = 8 - s.bitIdx.toNat by omega] at hjoin
  exact ⟨_, hread, Nat.mod_lt _ (Nat.two_pow_pos _), hjoin⟩

/-- Reading the rest of a byte from bit `BIT_IDX` on: the values join what was read before to the byte. -/
theorem runCommands_bitRd_fields {s : State} {ns : List (BitVec 8)} (hr : s.regionOk)
    (hin : s.byteIdx.toNat < s.rlen.toNat) (hpos : ∀ n ∈ ns, 1 ≤ n.toNat)
    (hsum : s.bitIdx.toNat + (ns.map BitVec.toNat).sum = 8) :
    ∃ (t : State) (vs : List Nat), runCommands (ns.map Instr.bitRd) s = .next t ∧ vs.length = ns.length ∧
      t.rsps = s.rsps ++ vs.map (fun v => ⟨.ok, [⟨0, BitVec.ofNat 16 v⟩]⟩) ∧
      joinFields ((s.byteAt (s.rbase.toNat + s.byteIdx.toNat)).toNat / 2 ^ (8 - s.bitIdx.toNat)) ns vs =
        (s.byteAt (s.rbase.toNat + s.byteIdx.toNat)).toNat ∧
      (∀ p ∈ ns.zip vs, p.2 < 2 ^ p.1.toNat) ∧
      t.byteIdx = s.byteIdx + 1 ∧ t.bitIdx = 0 := by
  induction ns generalizing s with
  | nil =>
    have hbit := s.bitIdx.isLt
    simp only [List.map_nil, List.sum_nil] at hsum
    omega
  | cons n ns ih =>
    obtain ⟨hn, hns⟩ := List.forall_mem_cons.1 hpos
    rw [List.map_cons, List.sum_cons] at hsum
    obtain ⟨v, hread, hfield, hjoin⟩ := exec_bitRd_next_field (n := n) hr ⟨hn, by omega, hin⟩
    rw [List.map_cons, runCommands_cons hread]
    by_cases hlast : s.bitIdx.toNat + n.toNat = 8
    · obtain rfl : ns = [] := by
        cases ns with
        | nil => rfl
        | cons m ms =>
          have := hns m List.mem_cons_self
          rw [List.map_cons, List.sum_cons] at hsum
          omega
      rw [if_pos hlast, if_pos hlast]
      refine ⟨_, [v], rfl, rfl, rfl, ?_, by simpa using hfield, rfl, rfl⟩
      rwa [hlast, Nat.sub_self, Nat.pow_zero, Nat.div_one] at hjoin
    · rw [if_neg hlast, if_neg hlast]
      have hbit : (BitVec.ofNat 3 (s.bitIdx.toNat + n.toNat)).toNat = s.bitIdx.toNat + n.toNat := by
        rw [BitVec.toNat_ofNat]
        omega
      have hrest : (BitVec.ofNat 3 (s.bitIdx.toNat + n.toNat)).toNat + (ns.map BitVec.toNat).sum = 8 := by
        rw [hbit]
        omega
      obtain ⟨t, vs, hrun, hlen, hrsps, hrestjoin, hlt, hcur⟩ :=
        ih (s := (s.setCursor s.byteIdx (BitVec.ofNat 3 (s.bitIdx.toNat + n.toNat))).respond
          [⟨0, BitVec.ofNat 16 v⟩]) hr hin hns hrest
      refine ⟨t, v :: vs, hrun, by simp [hlen], by simp [hrsps], ?_, ?_, hcur⟩
      · rw [State.respond_bitIdx, State.setCursor_bitIdx, hbit] at hrestjoin
        calc joinFields _ (n :: ns) (v :: vs) = joinFields _ ns vs := congrArg (joinFields · ns vs) hjoin
          _ = _ := hrestjoin
      · rw [List.zip_cons_cons, List.forall_mem_cons]
        exact ⟨hfield, hlt⟩

/-- Settles O32: from bit 0 nothing of the byte has been read before. -/
theorem fieldsJoinToByte : Obligations.FieldsJoinToByte := by
  intro s ns hr hbit hin hpos hsum
  have hzero : s.bitIdx.toNat = 0 := congrArg BitVec.toNat hbit
  have hbyte := (s.byteAt (s.rbase.toNat + s.byteIdx.toNat)).isLt
  obtain ⟨t, vs, hrun, hlen, hrsps, hjoin, hlt, hcur⟩ := runCommands_bitRd_fields hr hin hpos (by omega)
  rw [hzero, Nat.div_eq_of_lt hbyte] at hjoin
  exact ⟨t, vs, hrun, hlen, hrsps, hjoin, hlt, hcur⟩

/-! ## Blocks (42_nack_block R134) -/

theorem State.memRead_respond (s : State) (d : List DataPair) (a n : Nat) : (s.respond d).memRead a n = s.memRead a n :=
  memRead_congr (s := s.respond d) (t := s) rfl rfl a n

/-- A block stored is the block read back. -/
theorem State.blockAt_memWrite (s : State) (a : Nat) (b : Block) :
    Block.ofNat ((s.memWrite a 4 b.toNat).memRead a 4) = b := by
  rw [memRead_memWrite_self, Nat.mod_eq_of_lt b.toNat_lt, Block.ofNat_toNat]

/-- Storing the block read changes no byte. -/
theorem State.byteAt_memWrite_blockAt (s : State) (x a : Nat) :
    (s.memWrite x 4 (Block.ofNat (s.memRead x 4)).toNat).byteAt a = s.byteAt a := by
  have hhigh (p q : Byte) : (p ++ q : Word16).extractLsb' 8 8 = p := BitVec.extractLsb'_append_eq_left
  have hlow (p q : Byte) : (p ++ q : Word16).extractLsb' 0 8 = q := BitVec.extractLsb'_append_eq_right
  rw [byteAt_storeBlock, blockAt, hhigh, hlow, hhigh, hlow]
  split_ifs with h0 h1 h2 h3
  · rw [h0]
  · rw [h1]
  · rw [h2]
  · rw [h3]
  · rfl

/-- Settles O36: the store and the load meet at one place, in either order. -/
theorem nackBlockRoundTrip : Obligations.NackBlockRoundTrip := by
  intro s off hr hin
  refine ⟨fun pid blp => ?_, ?_⟩
  · refine ⟨_, (runCommands_cons (exec_nbEnc_inBounds hr hin) _).trans <|
      runCommands_cons (exec_nbDec_inBounds (by exact hr) (by exact hin)) _, ?_⟩
    simp [State.memRead_respond, State.blockAt_memWrite, Block.toData]
  · exact ⟨_, _, _, _, exec_nbDec_inBounds hr hin, rfl, exec_nbEnc_inBounds (by exact hr) (by exact hin),
      s.byteAt_memWrite_blockAt (s.rbase.toNat + off.toNat)⟩

end Sys2Proof.Machine

/-! SUPPORT. `NR.ENCODE` computes `Pack` (43_nack_run R151): after each push the blocks stored and the open one are what
`Pack` has made of the numbers so far, until a block has no room. -/

namespace Sys2Proof.Machine

/-! ## The state in the middle of a run -/

/-- The state less what `NR.ENCODE` writes. -/
def State.outsideEncoder (s : State) : State :=
  { s with mem := [], eValid := 0, ePid := 0, eBlp := 0, eLast := 0, woff := 0, blkcnt := 0, rsps := [] }

theorem resets_eq_of_outside {s t : State} (h : t.outsideEncoder = s.outsideEncoder) : t.resets = s.resets :=
  (congrArg State.resets h :)

/-- `t` is `s` after `n` commands of a run from `off`, all answered `OK`, that have stored and returned the blocks
`done`. -/
structure Encoded (s : State) (off : Word16) (n : Nat) (done : List Block) (t : State) : Prop where
  outside : t.outsideEncoder = s.outsideEncoder
  woff : t.woff.toNat = off.toNat + 4 * done.length
  blkcnt : t.blkcnt.toNat = done.length
  fits : done ≠ [] → off.toNat + 4 * done.length ≤ s.rlen.toNat
  rsps : ∃ rs : List Response, t.rsps = s.rsps ++ rs ∧ rs.length = n ∧ (∀ r ∈ rs, r.status = .ok) ∧
    rs.flatMap Response.data = done.map Block.toData
  stored : ∀ (j : Nat) (b : Block), done[j]? = some b →
    Block.ofNat (t.memRead (s.rbase.toNat + off.toNat + 4 * j) 4) = b
  kept : ∀ a, a < s.rbase.toNat + off.toNat ∨ s.rbase.toNat + off.toNat + 4 * done.length ≤ a →
    t.byteAt a = s.byteAt a

/-- The same with `b` the open block, and `last` the last number that joined it. -/
structure Opened (s : State) (off : Word16) (n : Nat) (done : List Block) (b : Block) (last : Word16) (t : State) : Prop
    extends Encoded s off n done t where
  valid : t.eValid = 1
  block : t.openedBlock = b
  tracks : b.tracks last
  eLast : t.eLast = last

/-- After `NR.START`. -/
theorem Encoded.start (s : State) (off : Word16) : Encoded s off 1 [] ((s.startRun off).respond []) where
  outside := rfl
  woff := rfl
  blkcnt := rfl
  fits h := absurd rfl h
  rsps := ⟨[⟨.ok, []⟩], rfl, rfl, by simp, rfl⟩
  stored := by simp
  kept _ _ := rfl

namespace Encoded

variable {s t t' : State} {off : Word16} {n : Nat} {done : List Block}

theorem rlen_eq (h : Encoded s off n done t) : t.rlen = s.rlen := (congrArg State.rlen h.outside :)

theorem rbase_eq (h : Encoded s off n done t) : t.rbase = s.rbase := (congrArg State.rbase h.outside :)

theorem regionOk (h : Encoded s off n done t) (hr : s.regionOk) : t.regionOk := by
  have hbytes : t.memBytes = s.memBytes := (congrArg State.memBytes h.outside :)
  rw [State.regionOk, h.rlen_eq, h.rbase_eq, hbytes]
  exact hr

/-- One more command that stored nothing. -/
theorem quiet (h : Encoded s off n done t) (hout : t'.outsideEncoder = t.outsideEncoder := by rfl)
    (hwoff : t'.woff = t.woff := by rfl) (hblk : t'.blkcnt = t.blkcnt := by rfl) (hmem : t'.mem = t.mem := by rfl)
    (hrsps : t'.rsps = t.rsps ++ [⟨.ok, []⟩] := by rfl) :
    Encoded s off (n + 1) done t' where
  outside := hout.trans h.outside
  woff := hwoff ▸ h.woff
  blkcnt := hblk ▸ h.blkcnt
  fits := h.fits
  rsps := by
    obtain ⟨rs, hrs, hlen, hok, hdata⟩ := h.rsps
    refine ⟨rs ++ [⟨.ok, []⟩], by rw [hrsps, hrs, List.append_assoc], by simp [hlen], fun r hr => ?_, by simp [hdata]⟩
    rcases List.mem_append.1 hr with hr | hr
    · exact hok r hr
    · rw [List.mem_singleton.1 hr]
  stored j b hb := by
    rw [State.memRead_congr hmem (resets_eq_of_outside hout)]
    exact h.stored j b hb
  kept a ha := by
    rw [State.byteAt_congr hmem (resets_eq_of_outside hout)]
    exact h.kept a ha

/-- One more command that stored and returned the open block. -/
theorem store (h : Encoded s off n done t) (hroom : t.woff.toNat + 4 ≤ t.rlen.toNat)
    (hout : t'.outsideEncoder = t.outsideEncoder := by rfl) (hwoff : t'.woff = t.stored.woff := by rfl)
    (hblk : t'.blkcnt = t.stored.blkcnt := by rfl) (hmem : t'.mem = t.stored.mem := by rfl)
    (hrsps : t'.rsps = t.rsps ++ [⟨.ok, [t.openedBlock.toData]⟩] := by rfl) :
    Encoded s off (n + 1) (done ++ [t.openedBlock]) t' where
  outside := hout.trans h.outside
  woff := by
    rw [hwoff, State.stored_woff_toNat hroom, h.woff, List.length_append, List.length_singleton]
    omega
  blkcnt := by
    have hcount : t.countOk := by
      rw [State.countOk, h.woff, h.blkcnt]
      omega
    rw [hblk, State.stored_blkcnt_toNat hroom hcount, h.blkcnt, List.length_append, List.length_singleton]
  fits _ := by
    rw [h.woff, h.rlen_eq] at hroom
    rw [List.length_append, List.length_singleton]
    omega
  rsps := by
    obtain ⟨rs, hrs, hlen, hok, hdata⟩ := h.rsps
    refine ⟨rs ++ [⟨.ok, [t.openedBlock.toData]⟩], by rw [hrsps, hrs, List.append_assoc], by simp [hlen],
      fun r hr => ?_, by simp [hdata]⟩
    rcases List.mem_append.1 hr with hr | hr
    · exact hok r hr
    · rw [List.mem_singleton.1 hr]
  stored j b hb := by
    have hread (a : Nat) : t'.memRead a 4 =
        (t.memWrite (s.rbase.toNat + off.toNat + 4 * done.length) 4 t.openedBlock.toNat).memRead a 4 := by
      rw [Nat.add_assoc, ← h.woff, ← h.rbase_eq]
      exact State.memRead_congr hmem (resets_eq_of_outside hout) a 4
    rw [hread]
    rcases Nat.lt_or_ge j done.length with hj | hj
    · rw [List.getElem?_append_left hj] at hb
      rw [State.memRead_memWrite_of_outside (by omega)]
      exact h.stored j b hb
    · rw [List.getElem?_append_right hj, List.getElem?_singleton] at hb
      split at hb
      case isTrue h0 =>
        obtain rfl : t.openedBlock = b := Option.some.inj hb
        rw [show j = done.length by omega, State.blockAt_memWrite]
      case isFalse => cases hb
  kept a ha := by
    rw [List.length_append, List.length_singleton] at ha
    have hbyte : t'.byteAt a =
        (t.memWrite (s.rbase.toNat + off.toNat + 4 * done.length) 4 t.openedBlock.toNat).byteAt a := by
      rw [Nat.add_assoc, ← h.woff, ← h.rbase_eq]
      exact State.byteAt_congr hmem (resets_eq_of_outside hout) a
    rw [hbyte, State.byteAt_memWrite_of_outside (by omega)]
    exact h.kept a (by omega)

end Encoded

/-! ## Where the region ends -/

/-- Of the commands `cmds` from `t`, which are to store the blocks `bs` in all, one must store a block that has no room:
it is refused with `OutOfBounds`, after commands that all answered `OK`. -/
def RefusedAtEnd (s : State) (off : Word16) (cmds : List Instr) (t : State) (bs : List Block) : Prop :=
  ∃ (before after : List Instr) (c : Instr) (u : State) (n : Nat) (done rest : List Block),
    cmds = before ++ c :: after ∧ runCommands before t = .next u ∧ Encoded s off n done u ∧
    exec c u = .next (u.raise .outOfBounds) ∧ s.rlen.toNat < off.toNat + 4 * done.length + 4 ∧
    bs = done ++ rest ∧ rest ≠ []

namespace RefusedAtEnd

variable {s t u : State} {off : Word16} {cmds : List Instr} {bs : List Block}

theorem now {n : Nat} {done rest : List Block} {c : Instr} (h : Encoded s off n done t)
    (hc : exec c t = .next (t.raise .outOfBounds)) (hroom : s.rlen.toNat < off.toNat + 4 * done.length + 4)
    (hbs : bs = done ++ rest) (hrest : rest ≠ []) (after : List Instr) : RefusedAtEnd s off (c :: after) t bs :=
  ⟨[], after, c, t, n, done, rest, rfl, rfl, h, hc, hroom, hbs, hrest⟩

/-- Commands that completed before. -/
theorem after_run {is : List Instr} (h : RefusedAtEnd s off cmds u bs) (his : runCommands is t = .next u) :
    RefusedAtEnd s off (is ++ cmds) t bs := by
  obtain ⟨before, after, c, v, n, done, rest, rfl, hrun, hv⟩ := h
  exact ⟨is ++ before, after, c, v, n, done, rest, by rw [List.append_assoc],
    by rw [runCommands_append his, hrun], hv⟩

/-- Commands never reached. -/
theorem append (h : RefusedAtEnd s off cmds t bs) (more : List Instr) : RefusedAtEnd s off (cmds ++ more) t bs := by
  obtain ⟨before, after, c, u, n, done, rest, rfl, hu⟩ := h
  exact ⟨before, after ++ more, c, u, n, done, rest, by rw [List.append_assoc, List.cons_append], hu⟩

/-- The blocks do not all fit. -/
theorem no_room (h : RefusedAtEnd s off cmds t bs) : s.rlen.toNat < off.toNat + 4 * bs.length := by
  obtain ⟨_, _, _, _, _, done, rest, -, -, -, -, hroom, rfl, hrest⟩ := h
  have := List.length_pos_iff.2 hrest
  rw [List.length_append]
  omega

end RefusedAtEnd

/-! ## Pushes -/

namespace Opened

variable {s t : State} {off : Word16} {n : Nat} {done : List Block} {b : Block} {last sn : Word16}

/-- Opening a block on `sn` with no other open. -/
theorem start (h : Encoded s off n done t) (hv : t.eValid = 0) (sn : Word16) :
    exec (.nrPush sn) t = .next ((t.openBlock sn).respond []) ∧
      Opened s off (n + 1) done ⟨sn, 0⟩ sn ((t.openBlock sn).respond []) :=
  ⟨exec_nrPush_noBlock hv,
    { h.quiet (t' := (t.openBlock sn).respond []) with
      valid := rfl, block := rfl, tracks := Block.tracks_start sn, eLast := rfl }⟩

/-- One push does what `Pack` does with the number, unless a block has to be stored that has no room. -/
theorem push (h : Opened s off n done b last t) (hr : s.regionOk) (ho : seqOrder last sn ≠ .outOfOrder) :
    (∃ t' done' b', exec (.nrPush sn) t = .next t' ∧ Opened s off (n + 1) done' b' sn t' ∧
      ∀ l, done ++ packFrom b (sn :: l) = done' ++ packFrom b' l) ∨
    ∀ l, RefusedAtEnd s off (.nrPush sn :: l.map Instr.nrPush) t (done ++ packFrom b (sn :: l)) := by
  obtain ⟨henc, hv, rfl, htracks, rfl⟩ := h
  rcases packFrom_cons_cases htracks ho with ⟨rfl, hskip⟩ | ⟨hf, h16, hjoined, hjoin⟩ | ⟨hf, h16, hnext⟩
  · refine .inl ⟨t.respond [], done, t.openedBlock, exec_nrPush_repeats hv rfl, ?_, fun l => by rw [hskip]⟩
    exact { henc.quiet (t' := t.respond []) with
      valid := hv, block := rfl, tracks := htracks, eLast := rfl }
  · refine .inl ⟨_, done, t.openedBlock.join sn, exec_nrPush_extends hv hf h16, ?_, fun l => by rw [hjoin]⟩
    exact { henc.quiet (t' := (t.extendBlock (seqSub sn t.ePid).toNat sn).respond []) with
      valid := hv, block := rfl, tracks := hjoined, eLast := rfl }
  · rcases Nat.lt_or_ge t.rlen.toNat (t.woff.toNat + 4) with hroom | hroom
    · refine .inr fun l => .now henc (exec_nrPush_outOfBounds hv hf h16 hroom) ?_ rfl ?_ _
      · rw [← henc.rlen_eq, ← henc.woff]
        exact hroom
      · rw [hnext]
        exact List.cons_ne_nil _ _
    · refine .inl ⟨_, done ++ [t.openedBlock], ⟨sn, 0⟩, exec_nrPush_stores hv hf h16 hroom (henc.regionOk hr), ?_,
        fun l => by rw [hnext, List.append_assoc, List.singleton_append]⟩
      exact { henc.store (t' := (t.stored.openBlock sn).respond [t.openedBlock.toData]) hroom with
        valid := rfl, block := rfl, tracks := Block.tracks_start sn, eLast := rfl }

/-- The pushes of a list end with the last of `Pack`'s blocks open and the others stored, or in a refused store. -/
theorem pushes {l : List Word16} (h : Opened s off n done b last t) (hr : s.regionOk)
    (hl : nonDescending (last :: l) = true) :
    (∃ t' done' b', runCommands (l.map Instr.nrPush) t = .next t' ∧
      Opened s off (n + l.length) done' b' (l.getLastD last) t' ∧ done ++ packFrom b l = done' ++ [b']) ∨
    RefusedAtEnd s off (l.map Instr.nrPush) t (done ++ packFrom b l) := by
  induction l generalizing n done b last t with
  | nil => exact .inl ⟨t, done, b, rfl, h, rfl⟩
  | cons sn l ih =>
    obtain ⟨ho, hrest⟩ := nonDescending_cons_cons.1 hl
    rcases h.push hr ho with ⟨u, done', b', hexec, hu, hpack⟩ | hrefused
    · have hrun : runCommands [.nrPush sn] t = .next u := runCommands_cons hexec []
      rw [List.map_cons, hpack l]
      rcases ih hu hrest with ⟨t', done'', b'', hrest, ht', hbs⟩ | hrefused
      · refine .inl ⟨t', done'', b'', by rw [runCommands_cons hexec, hrest], ?_, hbs⟩
        rwa [List.getLastD_cons, List.length_cons, ← Nat.add_assoc, Nat.add_right_comm]
      · exact .inr (hrefused.after_run hrun)
    · exact .inr (hrefused l)

/-- `NR.FLUSH` stores the open block, or is refused. -/
theorem flush (h : Opened s off n done b last t) (hr : s.regionOk) :
    (∃ t', exec .nrFlush t = .next t' ∧ Encoded s off (n + 1) (done ++ [b]) t' ∧ t'.eValid = 0) ∨
    RefusedAtEnd s off [.nrFlush] t (done ++ [b]) := by
  obtain ⟨henc, hv, rfl, -, -⟩ := h
  rcases Nat.lt_or_ge t.rlen.toNat (t.woff.toNat + 4) with hroom | hroom
  · refine .inr (.now henc (exec_nrFlush_outOfBounds hv hroom) ?_ rfl (List.cons_ne_nil _ _) [])
    rw [← henc.rlen_eq, ← henc.woff]
    exact hroom
  · exact .inl ⟨_, exec_nrFlush_stores hv hroom (henc.regionOk hr), henc.store hroom, rfl⟩

end Opened

/-! ## Whole runs (R151) -/

/-- `NR.START` and the pushes of a list. -/
theorem run_pushes {s : State} {off x : Word16} {l : List Word16} (hr : s.regionOk)
    (hl : nonDescending (x :: l) = true) :
    (∃ t done b, runCommands (.nrStart off :: (x :: l).map Instr.nrPush) s = .next t ∧
      Opened s off (l.length + 2) done b (l.getLastD x) t ∧ packAll (x :: l) = done ++ [b]) ∨
    RefusedAtEnd s off (.nrStart off :: (x :: l).map Instr.nrPush) s (packAll (x :: l)) := by
  obtain ⟨hexec, hopen⟩ := Opened.start (Encoded.start s off) rfl x
  have hrun : runCommands [.nrStart off, .nrPush x] s =
      .next ((((s.startRun off).respond []).openBlock x).respond []) :=
    (runCommands_cons (exec_nrStart off s) _).trans (runCommands_cons hexec _)
  rcases hopen.pushes hr hl with ⟨t, done, b, hpushes, ht, hbs⟩ | hrefused
  · refine .inl ⟨t, done, b, (runCommands_append hrun _).trans hpushes, ?_, hbs⟩
    rwa [Nat.add_comm]
  · exact .inr (hrefused.after_run hrun)

/-- `NR.ENCODE` stores the blocks of `Pack`, or is refused a store. -/
theorem run_nrEncode {s : State} {l : List Word16} (off : Word16) (hr : s.regionOk) (hl : nonDescending l = true) :
    (∃ t, runCommands (nrEncode off l) s = .next t ∧ Encoded s off (l.length + 2) (packAll l) t ∧ t.eValid = 0) ∨
    RefusedAtEnd s off (nrEncode off l) s (packAll l) := by
  cases l with
  | nil =>
    refine .inl ⟨_, (runCommands_cons (exec_nrStart off s) _).trans (runCommands_cons (exec_nrFlush_noBlock rfl) _),
      (Encoded.start s off).quiet, rfl⟩
  | cons x l =>
    rcases run_pushes (off := off) hr hl with ⟨t, done, b, hrun, ht, hbs⟩ | hrefused
    · rw [hbs]
      rcases ht.flush hr with ⟨t', hflush, ht', hv⟩ | hrefused
      · exact .inl ⟨t', (runCommands_append hrun _).trans (runCommands_cons hflush _), ht', hv⟩
      · exact .inr (hrefused.after_run hrun)
    · exact .inr (hrefused.append [.nrFlush])

namespace Encoded

variable {s t : State} {off : Word16} {n : Nat} {done : List Block}

/-- The bytes of each block stored. -/
theorem bytes (h : Encoded s off n done t) {j : Nat} {b : Block} (hb : done[j]? = some b) :
    t.byteAt (s.rbase.toNat + off.toNat + 4 * j) ++ t.byteAt (s.rbase.toNat + off.toNat + 4 * j + 1) = b.pid ∧
    t.byteAt (s.rbase.toNat + off.toNat + 4 * j + 2) ++ t.byteAt (s.rbase.toNat + off.toNat + 4 * j + 3) = b.blp := by
  rw [← h.stored j b hb, State.blockAt]
  exact ⟨rfl, rfl⟩

/-- Every register but the encoder's is as before. -/
theorem eq_update (h : Encoded s off n done t) : t = { s with
    mem := t.mem, ePid := t.ePid, eBlp := t.eBlp, eLast := t.eLast, eValid := t.eValid
    woff := BitVec.ofNat 16 (off.toNat + 4 * done.length), blkcnt := BitVec.ofNat 16 done.length, rsps := t.rsps } := by
  have hwoff : BitVec.ofNat 16 (off.toNat + 4 * done.length) = t.woff := by rw [← h.woff]; simp
  have hblk : BitVec.ofNat 16 done.length = t.blkcnt := by rw [← h.blkcnt]; simp
  rw [hwoff, hblk]
  exact congrArg (fun u : State => { u with
    mem := t.mem, ePid := t.ePid, eBlp := t.eBlp, eLast := t.eLast, eValid := t.eValid
    woff := t.woff, blkcnt := t.blkcnt, rsps := t.rsps }) h.outside

end Encoded

/-- Settles O45: with room for every block no store is refused. -/
theorem encodeRunComputesPack : Obligations.EncodeRunComputesPack := by
  intro s off l bs hr hpack hroom
  obtain ⟨hl, rfl⟩ := pack_eq_some hpack
  rcases run_nrEncode off hr hl with ⟨t, hrun, ht, hv⟩ | hrefused
  · obtain ⟨rs, hrs, hlen, hok, hdata⟩ := ht.rsps
    refine ⟨t, rs, hrun, ?_, hlen, hok, hdata, fun j b => ht.bytes, ht.kept⟩
    have heq := ht.eq_update
    rwa [hv, hrs] at heq
  · have := hrefused.no_room
    omega

/-- Settles O46: the pushes before leave `a` in `E_LAST`, after which the number is out of order. -/
theorem encodeRunStopsAtDisorder : Obligations.EncodeRunStopsAtDisorder := by
  intro s off l a sn bs hr hpack hroom ho
  obtain ⟨hl, rfl⟩ := pack_eq_some hpack
  refine ⟨?_, fun rest => ?_⟩
  · obtain ⟨x, l', hcons⟩ := List.exists_cons_of_ne_nil (List.concat_ne_nil a l)
    have hlast : l'.getLastD x = a := by
      rw [← List.getLastD_cons (a := a), ← hcons, List.getLastD_concat]
    rw [hcons] at hl hroom ⊢
    rcases run_pushes (off := off) hr hl with ⟨t, done, b, hrun, ht, -⟩ | hrefused
    · obtain ⟨rs, hrs, -, hok, -⟩ := ht.rsps
      refine ⟨t, rs, hrun, hrs, hok, exec_nrPush_outOfOrder ht.valid ?_⟩
      rwa [ht.eLast, hlast]
    · have := hrefused.no_room
      omega
  · rw [pack_eq_none_iff, ← Bool.not_eq_true]
    intro h
    obtain ⟨hne, -⟩ := nonDescending_cons_cons.1 (nonDescending_of_append h)
    exact hne ho

/-- Settles O47: the blocks do not all fit, so some store is refused, at the first block without room. -/
theorem encodeRunStopsAtRegionEnd : Obligations.EncodeRunStopsAtRegionEnd := by
  intro s off l bs hr hpack hne hsmall
  obtain ⟨hl, rfl⟩ := pack_eq_some hpack
  have hrefused : RefusedAtEnd s off (nrEncode off l) s (packAll l) := by
    rcases run_nrEncode off hr hl with ⟨t, -, ht, -⟩ | hrefused
    · have := ht.fits hne
      omega
    · exact hrefused
  obtain ⟨before, after, c, t, n, done, rest, hcmds, hrun, ht, hc, hroom, hbs, hrest⟩ := hrefused
  obtain ⟨rs, hrs, -, hok, -⟩ := ht.rsps
  have hpos := List.length_pos_iff.2 hrest
  refine ⟨before, after, c, t, rs, done.length, hcmds, hrun, hrs, hok, hc, ?_, ht.blkcnt, hroom, fun j b hj hb => ?_⟩
  · rw [hbs, List.length_append]
    omega
  · rw [hbs, List.getElem?_append_left hj] at hb
    exact ht.bytes hb

end Sys2Proof.Machine
